-- ==== Sys2Proof/Word.lean ====
section
/-! DEFINITION. The words of the paco-8 raster core: the byte and the nibble (spec 00_scope.md R9), the 96-bit
command word (30_encoding.md R56), the 64-bit response word (R66), and the pair of exact integers that names a pixel
or an offset (00_scope.md R14: no intermediate wraps). -/

namespace Sys2Proof

/-- A byte, R9. -/
abbrev Byte := BitVec 8

/-- Four bits: one packed pixel's color index, R15. -/
abbrev Nibble := BitVec 4

/-- A 16-bit operand field of the command word, R57. -/
abbrev Field := BitVec 16

/-- One 96-bit command, R56. -/
abbrev CmdWord := BitVec 96

/-- The 64-bit response, R66. -/
abbrev RspWord := BitVec 64

/-- A coordinate pair, or an offset of `circle_steps` (R90): exact integers, R14. -/
structure Point where
  x : Int
  y : Int
  deriving DecidableEq, Repr, Inhabited

/-- Which half of a byte a pixel occupies: low is bits [3:0], high is bits [7:4] (R15, R72). -/
inductive NibbleSel where
  | low
  | high
  deriving DecidableEq, Repr, Inhabited

end Sys2Proof
end

