-- ==== Sys2Proof/Syntax.lean ====
section
/-! DEFINITION. The command set PRC-1: one constructor for each row of spec/opcode_table.json, with the operands of
30_encoding.md R60 in their order. A coordinate, radius, color or index operand is the integer that its field stands
for (R58); the width and height of CFG are unsigned. -/

namespace Sys2Proof

/-- The twelve commands of R59. -/
inductive Instr where
  /-- `CFG`: `wv` and `hv` say whether the width and the height are given (R62, R102). -/
  | cfg (wv hv : Bool) (w h : Nat)
  /-- `XLATE x, y` (R76). -/
  | xlate (x y : Int)
  /-- `PGET x, y` (R77). -/
  | pget (x y : Int)
  /-- `PSET x, y, color` (R78). -/
  | pset (x y col : Int)
  /-- `CLS` (R85). -/
  | cls
  /-- `LINE x0, y0, x1, y1, color` (R86). -/
  | line (x0 y0 x1 y1 col : Int)
  /-- `RECT x0, y0, x1, y1, color` (R88). -/
  | rect (x0 y0 x1 y1 col : Int)
  /-- `RECTFILL x0, y0, x1, y1, color` (R89). -/
  | rectfill (x0 y0 x1 y1 col : Int)
  /-- `CIRC cx, cy, r, color` (R91). -/
  | circ (cx cy r col : Int)
  /-- `CIRCFILL cx, cy, r, color` (R92). -/
  | circfill (cx cy r col : Int)
  /-- `COLOR idx` (R97). -/
  | color (idx : Int)
  /-- `PAL idx` (R98). -/
  | pal (idx : Int)
  deriving DecidableEq, Repr, Inhabited

end Sys2Proof
end

