-- ==== Sys2Proof/WellFormed.lean ====
section
/-! DEFINITION. Which instructions a command word can express: every operand lies in the range of its 16-bit field
(30_encoding.md R58). -/

namespace Sys2Proof

/-- The range of a 16-bit two's complement operand: -32768 to 32767 (R58). -/
def isS16 (v : Int) : Bool := decide (-32768 ≤ v ∧ v ≤ 32767)

/-- The range of a 16-bit unsigned operand: 0 to 65535 (R58). -/
def isU16 (v : Nat) : Bool := decide (v ≤ 65535)

/-- The instruction's operands fit their fields. -/
def Instr.wellFormed : Instr → Bool
  | .cfg _ _ w h => isU16 w && isU16 h
  | .xlate x y => isS16 x && isS16 y
  | .pget x y => isS16 x && isS16 y
  | .pset x y col => isS16 x && isS16 y && isS16 col
  | .cls => true
  | .line x0 y0 x1 y1 col => isS16 x0 && isS16 y0 && isS16 x1 && isS16 y1 && isS16 col
  | .rect x0 y0 x1 y1 col => isS16 x0 && isS16 y0 && isS16 x1 && isS16 y1 && isS16 col
  | .rectfill x0 y0 x1 y1 col => isS16 x0 && isS16 y0 && isS16 x1 && isS16 y1 && isS16 col
  | .circ cx cy r col => isS16 cx && isS16 cy && isS16 r && isS16 col
  | .circfill cx cy r col => isS16 cx && isS16 cy && isS16 r && isS16 col
  | .color idx => isS16 idx
  | .pal idx => isS16 idx

end Sys2Proof
end

