-- ==== Sys2Proof/Decode.lean ====
section
/-! DEFINITION. The decoder of the 96-bit command word, total and rejecting by name (30_encoding.md R57 to R64, R71),
and after it the encoder, written from the same tables. -/

namespace Sys2Proof

/-- The assigned opcodes, R59. -/
inductive Opcode where
  | cfg | xlate | pget | pset | cls | line | rect | rectfill | circ | circfill | color | pal
  deriving DecidableEq, Repr, Inhabited

/-- Why a word is illegal, R63. -/
inductive DecodeError where
  /-- OP is 0x00 or in 0x0D to 0xFF. -/
  | unassignedOpcode
  /-- A reserved FLG bit is 1. -/
  | reservedFlag
  deriving DecidableEq, Repr, Inhabited

/-! ## Fields (R57) -/

def opField (cmd : CmdWord) : Byte := cmd.extractLsb' 0 8
def flgField (cmd : CmdWord) : Byte := cmd.extractLsb' 8 8
def aField (cmd : CmdWord) : Field := cmd.extractLsb' 16 16
def bField (cmd : CmdWord) : Field := cmd.extractLsb' 32 16
def cField (cmd : CmdWord) : Field := cmd.extractLsb' 48 16
def dField (cmd : CmdWord) : Field := cmd.extractLsb' 64 16
def eField (cmd : CmdWord) : Field := cmd.extractLsb' 80 16

/-- `sext_16`: a field read as two's complement (R10, R58). -/
def sext16 (f : Field) : Int := if f.toNat < 32768 then (f.toNat : Int) else (f.toNat : Int) - 65536

/-- `zext_16`: a field read unsigned (R10, R58). -/
def zext16 (f : Field) : Nat := f.toNat

/-! ## The opcode map (R59) -/

/-- The opcode number, R59. -/
def opcodeNumber : Opcode → Byte
  | .cfg => 0x01
  | .xlate => 0x02
  | .pget => 0x03
  | .pset => 0x04
  | .cls => 0x05
  | .line => 0x06
  | .rect => 0x07
  | .rectfill => 0x08
  | .circ => 0x09
  | .circfill => 0x0A
  | .color => 0x0B
  | .pal => 0x0C

/-- The opcode that a number stands for; 0x00 and 0x0D to 0xFF are unassigned (R59, R64). -/
def opcodeOf (op : Byte) : Option Opcode :=
  match op.toNat with
  | 0x01 => some .cfg
  | 0x02 => some .xlate
  | 0x03 => some .pget
  | 0x04 => some .pset
  | 0x05 => some .cls
  | 0x06 => some .line
  | 0x07 => some .rect
  | 0x08 => some .rectfill
  | 0x09 => some .circ
  | 0x0A => some .circfill
  | 0x0B => some .color
  | 0x0C => some .pal
  | _ => none

/-- The FLG bits an opcode reserves: [7:2] for CFG, all eight for every other (R62). -/
def reservedFlags : Opcode → Byte
  | .cfg => 0xFC
  | _ => 0xFF

/-- The word's bits that an opcode uses: OP, FLG and the operand fields of R60; the others are ignored (R61). -/
def usedBits : Opcode → CmdWord
  | .cfg => 0xFFFFFFFFFFFF
  | .xlate => 0xFFFFFFFFFFFF
  | .pget => 0xFFFFFFFFFFFF
  | .pset => 0xFFFFFFFFFFFFFFFF
  | .cls => 0xFFFF
  | .line => 0xFFFFFFFFFFFFFFFFFFFFFFFF
  | .rect => 0xFFFFFFFFFFFFFFFFFFFFFFFF
  | .rectfill => 0xFFFFFFFFFFFFFFFFFFFFFFFF
  | .circ => 0xFFFFFFFFFFFFFFFFFFFF
  | .circfill => 0xFFFFFFFFFFFFFFFFFFFF
  | .color => 0xFFFFFFFF
  | .pal => 0xFFFFFFFF

/-- The operands of R60, assembled by R58; the other fields are ignored (R61). -/
def operands (o : Opcode) (cmd : CmdWord) : Instr :=
  match o with
  | .cfg => .cfg ((flgField cmd).getLsbD 0) ((flgField cmd).getLsbD 1) (zext16 (aField cmd)) (zext16 (bField cmd))
  | .xlate => .xlate (sext16 (aField cmd)) (sext16 (bField cmd))
  | .pget => .pget (sext16 (aField cmd)) (sext16 (bField cmd))
  | .pset => .pset (sext16 (aField cmd)) (sext16 (bField cmd)) (sext16 (cField cmd))
  | .cls => .cls
  | .line => .line (sext16 (aField cmd)) (sext16 (bField cmd)) (sext16 (cField cmd)) (sext16 (dField cmd)) (sext16 (eField cmd))
  | .rect => .rect (sext16 (aField cmd)) (sext16 (bField cmd)) (sext16 (cField cmd)) (sext16 (dField cmd)) (sext16 (eField cmd))
  | .rectfill => .rectfill (sext16 (aField cmd)) (sext16 (bField cmd)) (sext16 (cField cmd)) (sext16 (dField cmd)) (sext16 (eField cmd))
  | .circ => .circ (sext16 (aField cmd)) (sext16 (bField cmd)) (sext16 (cField cmd)) (sext16 (dField cmd))
  | .circfill => .circfill (sext16 (aField cmd)) (sext16 (bField cmd)) (sext16 (cField cmd)) (sext16 (dField cmd))
  | .color => .color (sext16 (aField cmd))
  | .pal => .pal (sext16 (aField cmd))

/-- The decoder, R71: OP first, then the reserved flags (R63), then the operands. -/
def decode (cmd : CmdWord) : Except DecodeError Instr :=
  match opcodeOf (opField cmd) with
  | none => .error .unassignedOpcode
  | some o => if flgField cmd &&& reservedFlags o = 0 then .ok (operands o cmd) else .error .reservedFlag

/-- The command word that a row of the opcode table stands for: `nbits` bits of `w`, zeros above (R57: bit 0 of the
row is bit 0 of the word; the word is handed over whole, R56, so no byte order arises). -/
def tableWord (nbits w : Nat) : CmdWord := BitVec.ofNat 96 (w % 2 ^ nbits)

/-- The instruction the decoder reads from an opcode-table word. -/
def decodeTableWord (nbits w : Nat) : Option Instr :=
  match decode (tableWord nbits w) with
  | .ok i => some i
  | .error _ => none

/-! ## The encoder -/

/-- The fields put together, E most significant (R57). -/
def assembleWord (op flg : Byte) (a b c d e : Field) : CmdWord := e ++ d ++ c ++ b ++ a ++ flg ++ op

/-- A signed operand's field: its 16-bit two's complement pattern (R10, R58). -/
def sField (v : Int) : Field := BitVec.ofInt 16 v

/-- An unsigned operand's field. -/
def uField (v : Nat) : Field := BitVec.ofNat 16 v

/-- The FLG field of CFG: WV is bit 0 and HV is bit 1 (R62). -/
def cfgFlags (wv hv : Bool) : Byte := (0 : BitVec 6) ++ BitVec.ofBool hv ++ BitVec.ofBool wv

/-- The opcode of an instruction. -/
def Instr.opcode : Instr → Opcode
  | .cfg .. => .cfg
  | .xlate .. => .xlate
  | .pget .. => .pget
  | .pset .. => .pset
  | .cls => .cls
  | .line .. => .line
  | .rect .. => .rect
  | .rectfill .. => .rectfill
  | .circ .. => .circ
  | .circfill .. => .circfill
  | .color .. => .color
  | .pal .. => .pal

/-- The command word of an instruction; unused fields are 0 (R57 to R62). -/
def encode (i : Instr) : CmdWord :=
  let op := opcodeNumber i.opcode
  match i with
  | .cfg wv hv w h => assembleWord op (cfgFlags wv hv) (uField w) (uField h) 0 0 0
  | .xlate x y => assembleWord op 0 (sField x) (sField y) 0 0 0
  | .pget x y => assembleWord op 0 (sField x) (sField y) 0 0 0
  | .pset x y col => assembleWord op 0 (sField x) (sField y) (sField col) 0 0
  | .cls => assembleWord op 0 0 0 0 0 0
  | .line x0 y0 x1 y1 col => assembleWord op 0 (sField x0) (sField y0) (sField x1) (sField y1) (sField col)
  | .rect x0 y0 x1 y1 col => assembleWord op 0 (sField x0) (sField y0) (sField x1) (sField y1) (sField col)
  | .rectfill x0 y0 x1 y1 col => assembleWord op 0 (sField x0) (sField y0) (sField x1) (sField y1) (sField col)
  | .circ cx cy r col => assembleWord op 0 (sField cx) (sField cy) (sField r) (sField col) 0
  | .circfill cx cy r col => assembleWord op 0 (sField cx) (sField cy) (sField r) (sField col) 0
  | .color idx => assembleWord op 0 (sField idx) 0 0 0 0
  | .pal idx => assembleWord op 0 (sField idx) 0 0 0 0

end Sys2Proof
end

