-- ==== Sys2Proof/Config.lean ====
section
/-! DEFINITION. What is fixed for one core: the fixed parameters of 00_scope.md R7 and the open parameters of R8.
The open ones, `PALETTE[1..15]` and `ROM_INIT`, and the one
value the spec leaves unstated have no body, so nothing can be proved about their values. -/

namespace Sys2Proof

/-- The two forms of the Bresenham step tests, R82. -/
inductive LineTie where
  /-- `e2 > -dy`, `e2 < dx`: the spec's default. -/
  | gtLt
  /-- `e2 >= -dy`, `e2 <= dx`: the alternative. -/
  | geLe
  deriving DecidableEq, Repr, Inhabited

/-- One palette entry: an RGB triple of bytes, R24 and R99. -/
structure Rgb where
  r : Byte
  g : Byte
  b : Byte
  deriving DecidableEq, Repr, Inhabited

namespace Config

/-- `RAM_SIZE`, R7. -/
abbrev ramSize : Nat := 32768
/-- `ROM_SIZE`, R7. -/
abbrev romSize : Nat := 17152
/-- `SCREEN_BASE`, R7. -/
abbrev screenBase : Nat := 0x6000
/-- `SCREEN_BYTES`, R7. -/
abbrev screenBytes : Nat := 8192
/-- `MAX_PIXELS`, R7. -/
abbrev maxPixels : Nat := 16384

/-- What a RAM byte that nothing has written reads as: RAM is zero-initialized at power-on, R128. -/
def ramInit (_ : Nat) : Byte := 0

/-- `ROM_INIT`: the power-on contents of ROM, an open parameter (R8, R128). Log entry 5. -/
opaque romInit : Nat → Byte

/-- The byte that a host write or fill stores for a fractional value in [0, 256): the spec states none
(91_not_in_source.md N12), so it is a free value. Log entry 8. -/
opaque fractionalByte : Rat → Byte

/-- `PALETTE[1..15]`: an open parameter (R8, R99). Entry i of the vector is `PALETTE[i + 1]`. Log entry 4. -/
opaque palette : Vector Rgb 15

end Config

end Sys2Proof
end

