-- ==== Sys2Proof/Machine/State.lean ====
section
/-! DEFINITION. The state of the core and its host as plain data (10_state.md), the reasons a step can stop, and the
machine right after power-on reset (70_reset_and_hazards.md R127, R128). -/

namespace Sys2Proof.Machine

/-- A byte space as a list of (address, byte) cells. The canonical form (`Memory.wf`, Machine/Ops.lean) has strictly
rising addresses and no cell equal to what an unlisted address reads as. -/
abbrev Memory := List Host.Cell

/-- What the host may do next (60_exceptions.md R124). Addresses, values and lengths of the memory operations are
rationals, since the host may give fractional ones (20_memory.md section 4). Log entries 1, 2 and 8. -/
inductive HostAction where
  /-- Issue one 96-bit command word (R124, R132). -/
  | command (cmd : CmdWord)
  /-- Read BUSY, RSP_VALID and RSP directly (10_state.md R32). -/
  | poll
  /-- Host `read(addr)`, 20_memory.md R45. -/
  | read (addr : Rat)
  /-- Host `write(addr, val)`, R46. -/
  | write (addr val : Rat)
  /-- Host `copy(dest, src, len)`, RAM to RAM, R47. -/
  | copy (dest src len : Rat)
  /-- Host `restore(dest, src, len)`, ROM to RAM, R48. -/
  | restore (dest src len : Rat)
  /-- Host `store(dest, src, len)`, RAM to ROM, R49. -/
  | store (dest src len : Rat)
  /-- Host `store` with all three arguments omitted, R49. -/
  | storeDefault
  /-- Host `fill(dest, val, len)`, R50. -/
  | fill (dest val len : Rat)
  /-- Core reset while the core is idle, or whenever it is asserted between steps (R127). -/
  | reset
  /-- Issue a command and assert core reset after `k` of its pixel writes' loop steps (R127, U8). -/
  | resetDuring (cmd : CmdWord) (k : Nat)
  deriving DecidableEq, Repr

/-- What the host was last told by an action that is not a command (20_memory.md R45 to R50, 10_state.md R32). -/
inductive HostAnswer where
  /-- The operation succeeded and has no result. -/
  | done
  /-- The byte that `read` returned. -/
  | byte (v : Byte)
  /-- A failing check raised OUT_OF_RANGE to the host. -/
  | outOfRange
  /-- The interface registers as polled. -/
  | interface (busy rspValid : Bool) (rsp : RspWord)
  deriving DecidableEq, Repr

/-- Everything the spec gives the machine, with the model's own fields `lineTie` (a parameter), `input` and `answer`.
INVENTORY.md lists the rule of each field. -/
structure State where
  /-- `CUR_COLOR`, 10_state.md R20. -/
  curColor : Nibble
  /-- `W`, R21. -/
  w : BitVec 16
  /-- `W_SET`, R21. -/
  wSet : Bool
  /-- `H`, R22. -/
  h : BitVec 16
  /-- `H_SET`, R22. -/
  hSet : Bool
  /-- `PALETTE[1..15]`, R24: entry i of the vector is `PALETTE[i + 1]`. -/
  palette : Vector Rgb 15
  /-- `LINE_TIE`, the parameter of R31. -/
  lineTie : LineTie
  /-- `RAM`, R25. -/
  ram : Memory
  /-- `ROM`, R26. -/
  rom : Memory
  /-- `BUSY`, R27. -/
  busy : Bool
  /-- `RSP`, R28. -/
  rsp : RspWord
  /-- `RSP_VALID`, R28. -/
  rspValid : Bool
  /-- What the host will do, first action first: the input of R31. -/
  input : List HostAction
  /-- What the host was last told by a poll or a memory operation. -/
  answer : Option HostAnswer
  deriving DecidableEq, Repr

/-- The machine has no fault: no behaviour of the core is stuck (93_implementation_defined.md Part 1), and every
error is a status in the response (60_exceptions.md R107, R114). The type has no constructor; nothing raises it. -/
inductive Fault where
  deriving DecidableEq, Repr

/-- The steps the model gives no meaning. -/
inductive Refusal where
  /-- Raised by an arm of `exec` whose instruction has no meaning yet; safe. No arm raises it in this package. -/
  | notModelled (mnemonic : String)
  /-- Raised by `step` for a command word offered while BUSY = 1 (93_implementation_defined.md U15, treatment
  `refuse`; 70_reset_and_hazards.md R132); safe. -/
  | commandWhileBusy
  /-- Raised by `step` for a host access to RAM or ROM while BUSY = 1 (U7, treatment `refuse`; R133); safe. -/
  | hostAccessWhileBusy
  /-- Raised by `step` in a state with BUSY = 1 and no host action: a state inside a command, which the atomic model
  (R138) does not have between steps; safe. -/
  | midCommand
  deriving DecidableEq, Repr

/-- What one step of this machine answers. -/
abbrev Result := Host.Outcome State Fault Refusal

/-- The machine right after power-on reset: 70_reset_and_hazards.md R127 and R128. `w` and `h` are unspecified there
and not read while unset; they stand at 0 (DESIGN CHOICE, log entry 3). -/
def State.reset : State where
  curColor := 0
  w := 0
  wSet := false
  h := 0
  hSet := false
  palette := Config.palette
  lineTie := .gtLt
  ram := []
  rom := []
  busy := false
  rsp := 0
  rspValid := false
  input := []
  answer := none

end Sys2Proof.Machine
end

