-- ==== Sys2Proof/Machine/Flags.lean ====
section
/-! DEFINITION. The core has no status flags (10_state.md R19): the one outcome of a command is the STATUS of its
response. This file holds the status codes (60_exceptions.md R106) and the response word (30_encoding.md R66). -/

namespace Sys2Proof.Machine

/-- The status names of R106. -/
inductive Status where
  | ok
  | outOfRange
  | invalidColorIndex
  | notConfigured
  | illegalCommand
  deriving DecidableEq, Repr, Inhabited

/-- The status codes of R106. -/
def statusCode : Status → Byte
  | .ok => 0x00
  | .outOfRange => 0x01
  | .invalidColorIndex => 0x02
  | .notConfigured => 0x03
  | .illegalCommand => 0x04

/-- The selector as a number: 0 = low, 1 = high (R72). -/
def nibbleBit : NibbleSel → BitVec 1
  | .low => 0
  | .high => 1

/-- The response word of R66: STATUS in [7:0], NIB in [8], zeros in [31:9], DATA in [63:32]. -/
def responseWord (st : Status) (nib : NibbleSel) (data : BitVec 32) : RspWord :=
  data ++ (0 : BitVec 23) ++ nibbleBit nib ++ statusCode st

/-- `STATUS`, R66. -/
def rspStatus (r : RspWord) : Byte := r.extractLsb' 0 8
/-- `NIB`, R66. -/
def rspNib (r : RspWord) : BitVec 1 := r.extractLsb' 8 1
/-- The bits that R66 keeps 0. -/
def rspZero (r : RspWord) : BitVec 23 := r.extractLsb' 9 23
/-- `DATA`, R66. -/
def rspData (r : RspWord) : BitVec 32 := r.extractLsb' 32 32

end Sys2Proof.Machine
end

