-- ==== Sys2Proof/Machine/Operands.lean ====
section
/-! DEFINITION. Operand forms: color resolution (42_color_palette.md R96), rectangle normalisation (41_raster.md R87),
the translator's pure functions (40_addressing_pixel.md R72), the nibble helpers (R75), and the host's truncation of
addresses and lengths (20_memory.md section 4). -/

namespace Sys2Proof.Machine

/-- `resolve(v)`, R96: a color operand in 0..15 stands for itself, any other for the current color. -/
def resolve (s : State) (v : Int) : Nibble := if 0 ≤ v ∧ v ≤ 15 then BitVec.ofInt 4 v else s.curColor

/-- The screen width as an integer. -/
def State.width (s : State) : Int := s.w.toNat

/-- The screen height as an integer. -/
def State.height (s : State) : Int := s.h.toNat

/-- Both dimensions are set: the core is configured (10_state.md R23). -/
def configured (s : State) : Bool := s.wSet && s.hSet

/-- `0 <= x < W` and `0 <= y < H` (00_scope.md R15). -/
def onScreen (s : State) (x y : Int) : Bool := decide (0 ≤ x ∧ x < s.width ∧ 0 ≤ y ∧ y < s.height)

/-- `pixel_index(x, y)`, R72: an exact integer. -/
def pixelIndex (s : State) (x y : Int) : Int := x + (s.height - y - 1) * s.width

/-- `byte_address(p)`, R72. Division by 2 rounds toward minus infinity (00_scope.md R11). -/
def byteAddress (p : Int) : Int := (Config.screenBase : Int) + p / 2

/-- `nibble_sel(p)`, R72: an even index is in the low nibble. -/
def nibbleSel (p : Int) : NibbleSel := if p % 2 = 0 then .low else .high

/-- `get_nib(b, n)`, R75. -/
def getNib (b : Byte) : NibbleSel → Nibble
  | .low => b.extractLsb' 0 4
  | .high => b.extractLsb' 4 4

/-- `put_nib(b, n, c)`, R75. -/
def putNib (b : Byte) (n : NibbleSel) (c : Nibble) : Byte :=
  match n with
  | .low => b.extractLsb' 4 4 ++ c
  | .high => c ++ b.extractLsb' 0 4

/-- `tz(v)`: truncation toward zero (20_memory.md section 4). -/
def truncZero (v : Rat) : Int := v.num.tdiv v.den

/-- A host value as an integer for the check of R38 and R39: an integer is itself, a fraction in [0, 256) stores a free
byte (log entry 8), and any other fraction stays outside [0, 256). -/
def hostValue (v : Rat) : Int := if v.den ≠ 1 ∧ 0 ≤ v ∧ v < 256 then (Config.fractionalByte v).toNat else v.floor

end Sys2Proof.Machine
end

