-- ==== Sys2Proof/Machine/Ops.lean ====
section
/-! DEFINITION. The named operations over memory and registers: the byte spaces and their canonical form, the core's
memory primitives (20_memory.md R37 to R39), the palette read (42_color_palette.md R99), the end of a command with a
response (00_scope.md R12) or with an error (60_exceptions.md R107), and `plot` (40_addressing_pixel.md R74). -/

namespace Sys2Proof.Machine

/-! ## Byte spaces -/

/-- What address `a` reads as: its cell's byte, or what an unlisted address reads as. -/
def Memory.read (init : Nat → Byte) (m : Memory) (a : Nat) : Byte :=
  match m with
  | [] => init a
  | c :: rest => if c.1 = a then c.2 else Memory.read init rest a

/-- The cells of consecutive bytes from address `a` on, less those an unlisted address already reads as. -/
def Memory.cellsFrom (init : Nat → Byte) : Nat → List Byte → Memory
  | _, [] => []
  | a, b :: bs => if b = init a then Memory.cellsFrom init (a + 1) bs else (a, b) :: Memory.cellsFrom init (a + 1) bs

/-- The memory with the bytes `bs` written at the addresses from `a` on: the one write operation, of any length. -/
def Memory.splice (init : Nat → Byte) (m : Memory) (a : Nat) (bs : List Byte) : Memory :=
  m.filter (fun c => decide (c.1 < a)) ++ Memory.cellsFrom init a bs ++
    m.filter (fun c => decide (a + bs.length ≤ c.1))

/-- `n` bytes from address `a` on. -/
def Memory.bytes (init : Nat → Byte) (m : Memory) (a : Nat) : Nat → List Byte
  | 0 => []
  | n + 1 => Memory.read init m a :: Memory.bytes init m (a + 1) n

/-- `n` equal bytes: what a fill writes. -/
def byteRun (n : Nat) (v : Byte) : List Byte := List.replicate n v

/-- The canonical form: addresses strictly rise and lie below `size`, and no cell equals what its address would read
as unlisted. -/
abbrev Memory.wf (init : Nat → Byte) (size : Nat) (m : Memory) : Prop :=
  m.Pairwise (fun c d => c.1 < d.1) ∧ ∀ c ∈ m, c.1 < size ∧ c.2 ≠ init c.1

/-- One byte of RAM, 10_state.md R25. -/
def ramByte (s : State) (a : Nat) : Byte := Memory.read Config.ramInit s.ram a

/-- One byte of ROM, R26. -/
def romByte (s : State) (a : Nat) : Byte := Memory.read Config.romInit s.rom a

/-- RAM with the bytes `bs` from address `a` on. -/
def State.setRam (s : State) (a : Nat) (bs : List Byte) : State :=
  { s with ram := Memory.splice Config.ramInit s.ram a bs }

/-- ROM with the bytes `bs` from address `a` on. -/
def State.setRom (s : State) (a : Nat) (bs : List Byte) : State :=
  { s with rom := Memory.splice Config.romInit s.rom a bs }

/-! ## The core's memory primitives -/

/-- `0 <= a < RAM_SIZE`, the core's only address check (20_memory.md R35). -/
def inRam (a : Int) : Bool := decide (0 ≤ a ∧ a < (Config.ramSize : Int))

/-- `MemRead(a, 1)`, R37. -/
def memRead (s : State) (a : Int) : Except Status Byte :=
  if inRam a then .ok (ramByte s a.toNat) else .error .outOfRange

/-- `MemWrite(a, 1, v)`, R38. -/
def memWrite (s : State) (a v : Int) : Except Status State :=
  if inRam a && decide (0 ≤ v ∧ v < 256) then .ok (s.setRam a.toNat [BitVec.ofInt 8 v]) else .error .outOfRange

/-- `MemFill(a, v, n)`, R39: a negative length fails, an empty range needs no range check, the value is a byte. -/
def memFill (s : State) (a v n : Int) : Except Status State :=
  if n < 0 then .error .outOfRange
  else if 0 < n ∧ (a < 0 ∨ (Config.ramSize : Int) ≤ a + n - 1) then .error .outOfRange
  else if v < 0 ∨ 256 ≤ v then .error .outOfRange
  else .ok (s.setRam a.toNat (byteRun n.toNat (BitVec.ofInt 8 v)))

/-! ## The palette -/

/-- `PALETTE[i]`, R99: entry 0 is black, entries 1 to 15 are the table's. -/
def paletteEntry (s : State) (i : Nibble) : Rgb :=
  if h : 0 < i.toNat then s.palette[i.toNat - 1]'(by have := i.isLt; omega) else ⟨0, 0, 0⟩

/-! ## How a command ends -/

/-- The engine accepts a command: BUSY is set and the old response is no longer valid (10_state.md R27, R28). -/
def State.accept (s : State) : State := { s with busy := true, rspValid := false }

/-- The response is written: RSP holds it, RSP_VALID is set, BUSY is cleared (R27, R28). -/
def State.endCommand (s : State) (r : RspWord) : State := { s with rsp := r, rspValid := true, busy := false }

/-- `respond(nib, data)`: the command ends with status OK (00_scope.md R12). -/
def respond (nib : NibbleSel) (data : BitVec 32) (s : State) : Result :=
  .next (s.endCommand (responseWord .ok nib data))

/-- `raise S`, the core's only form of exception (60_exceptions.md R107): the command ends with status S, NIB and
DATA are 0, and nothing else of the state changes. There is no return from it (R115): the next command starts from
the state it leaves. -/
def raise (st : Status) (s : State) : Result :=
  .next (s.endCommand (responseWord st .low 0))

/-! ## plot -/

/-- `plot(x, y, c)`, R74: nothing off-screen; on-screen one read-modify-write of the byte that holds the pixel. -/
def plot (s : State) (c : Nibble) (pt : Point) : Except Status State :=
  if onScreen s pt.x pt.y then
    let p := pixelIndex s pt.x pt.y
    let a := byteAddress p
    match memRead s a with
    | .ok b => memWrite s a (putNib b (nibbleSel p) c).toNat
    | .error st => .error st
  else .ok s

/-- The plots of a command in their order, all of one color (41_raster.md R84). -/
def plotAll (c : Nibble) : List Point → State → Except Status State
  | [], s => .ok s
  | pt :: pts, s =>
    match plot s c pt with
    | .ok s' => plotAll c pts s'
    | .error st => .error st

end Sys2Proof.Machine
end

