-- ==== Sys2Proof/Machine/Color.lean ====
section
/-! DEFINITION. COLOR and PAL: the current-color register and the palette look-up (42_color_palette.md R97, R98). -/

namespace Sys2Proof.Machine

/-- `COLOR idx`, R97: the check comes before the write. -/
def execColor (idx : Int) (s : State) : Result :=
  if 0 ≤ idx ∧ idx ≤ 15 then respond .low 0 { s with curColor := BitVec.ofInt 4 idx }
  else raise .invalidColorIndex s

/-- `{R, G, B}` in `DATA[23:0]`, zero-extended (30_encoding.md R67). -/
def packRgb (e : Rgb) : BitVec 32 := (0 : BitVec 8) ++ e.r ++ e.g ++ e.b

/-- `PAL idx`, R98. -/
def execPal (idx : Int) (s : State) : Result :=
  if 0 ≤ idx ∧ idx ≤ 15 then respond .low (packRgb (paletteEntry s (BitVec.ofInt 4 idx))) s
  else raise .outOfRange s

end Sys2Proof.Machine
end

