-- ==== Sys2Proof/Machine/Pixel.lean ====
section
/-! DEFINITION. The translator and pixel commands: XLATE, PGET, PSET (40_addressing_pixel.md R76 to R78). -/

namespace Sys2Proof.Machine

/-- `XLATE x, y`, R76: the byte address as 32-bit two's complement, and the nibble selector. No memory is accessed. -/
def execXlate (x y : Int) (s : State) : Result :=
  if configured s then
    let p := pixelIndex s x y
    respond (nibbleSel p) (BitVec.ofInt 32 (byteAddress p)) s
  else raise .notConfigured s

/-- `PGET x, y`, R77: the nibble at the translated address, with no on-screen test; OUT_OF_RANGE outside RAM. -/
def execPget (x y : Int) (s : State) : Result :=
  if configured s then
    let p := pixelIndex s x y
    match memRead s (byteAddress p) with
    | .ok b => respond .low ((getNib b (nibbleSel p)).setWidth 32) s
    | .error st => raise st s
  else raise .notConfigured s

/-- How every drawing command ends: its plots in order, in the color resolved once at the start (41_raster.md R84,
40_addressing_pixel.md R78), then OK. -/
def drawPoints (col : Int) (pts : List Point) (s : State) : Result :=
  match plotAll (resolve s col) pts s with
  | .ok s' => respond .low 0 s'
  | .error st => raise st s

/-- `PSET x, y, color`, R78. -/
def execPset (x y col : Int) (s : State) : Result :=
  if configured s then drawPoints col [⟨x, y⟩] s else raise .notConfigured s

end Sys2Proof.Machine
end

