-- ==== Sys2Proof/Machine/Raster.lean ====
section
/-! DEFINITION. The rasterizer (41_raster.md): the plot sequences of lines, rectangles and circles, in the order the
pseudocode fixes, and the commands CLS, LINE, RECT, RECTFILL, CIRC, CIRCFILL. -/

namespace Sys2Proof.Machine

/-! ## Lines (R82) -/

/-- `STEP_X(e2, dy)`, R82. -/
def stepX (tie : LineTie) (e2 dy : Int) : Bool :=
  match tie with
  | .gtLt => decide (-dy < e2)
  | .geLe => decide (-dy ≤ e2)

/-- `STEP_Y(e2, dx)`, R82. -/
def stepY (tie : LineTie) (e2 dx : Int) : Bool :=
  match tie with
  | .gtLt => decide (e2 < dx)
  | .geLe => decide (e2 ≤ dx)

/-- `1 if a < b else -1`, R82. -/
def stepSign (a b : Int) : Int := if a < b then 1 else -1

/-- What a walk keeps fixed: the end point, `dx`, `dy`, `sx`, `sy` (R82). -/
structure LineWalk where
  tie : LineTie
  x1 : Int
  y1 : Int
  dx : Int
  dy : Int
  sx : Int
  sy : Int
  deriving DecidableEq, Repr

/-- The loop of `line_core` from the loop state `(x, y, err)` on (R82, 10_state.md R29), for at most `fuel` plots. -/
def lineFrom (k : LineWalk) : Nat → Int → Int → Int → List Point
  | 0, _, _, _ => []
  | fuel + 1, x, y, err =>
    ⟨x, y⟩ ::
      if x = k.x1 ∧ y = k.y1 then []
      else
        let e2 := 2 * err
        lineFrom k fuel
          (if stepX k.tie e2 k.dy then x + k.sx else x)
          (if stepY k.tie e2 k.dx then y + k.sy else y)
          (err - (if stepX k.tie e2 k.dy then k.dy else 0) + (if stepY k.tie e2 k.dx then k.dx else 0))

/-- The larger of `|x1 - x0|` and `|y1 - y0|`: the walk makes one more plot than that (R83). -/
def lineSpan (x0 y0 x1 y1 : Int) : Nat := max (x1 - x0).natAbs (y1 - y0).natAbs

/-- The plots of `line_core(x0, y0, x1, y1, c)` in order, R82. The loop ends by its own exit test; R83's count of
plots bounds it, so that the definition is structurally recursive. -/
def linePoints (tie : LineTie) (x0 y0 x1 y1 : Int) : List Point :=
  let dx : Int := (x1 - x0).natAbs
  let dy : Int := (y1 - y0).natAbs
  lineFrom ⟨tie, x1, y1, dx, dy, stepSign x0 x1, stepSign y0 y1⟩ (lineSpan x0 y0 x1 y1 + 1) x0 y0 (dx - dy)

/-! ## Rectangles (R87 to R89) -/

/-- `n` consecutive integers from `a` on. -/
def intsFrom (a : Int) : Nat → List Int
  | 0 => []
  | n + 1 => a :: intsFrom (a + 1) n

/-- The loop range `a .. b`, both ends included. -/
def intRange (a b : Int) : List Int := intsFrom a (b - a + 1).toNat

/-- The plots of the outline of `[xa, xb] x [ya, yb]`, R88: bottom and top edges, then left and right edges. -/
def outlinePoints (xa ya xb yb : Int) : List Point :=
  (intRange xa xb).flatMap (fun x => [⟨x, ya⟩, ⟨x, yb⟩]) ++ (intRange ya yb).flatMap (fun y => [⟨xa, y⟩, ⟨xb, y⟩])

/-- The plots of RECT: normalised (R87), then the outline (R88). -/
def rectPoints (x0 y0 x1 y1 : Int) : List Point := outlinePoints (min x0 x1) (min y0 y1) (max x0 x1) (max y0 y1)

/-- The plots of the half-open box `[xa, xb) x [ya, yb)`, row by row, R89. -/
def boxPoints (xa ya xb yb : Int) : List Point :=
  (intRange ya (yb - 1)).flatMap fun y => (intRange xa (xb - 1)).map fun x => ⟨x, y⟩

/-- The plots of RECTFILL: normalised (R87), the loop bounds clipped to `[0, W) x [0, H)` as R89 allows. -/
def rectfillPoints (w h x0 y0 x1 y1 : Int) : List Point :=
  boxPoints (max (min x0 x1) 0) (max (min y0 y1) 0) (min (max x0 x1) w) (min (max y0 y1) h)

/-! ## Circles (R90 to R92) -/

/-- The loop of `circle_steps` from the loop state `(x, y, err)` on (R90, 10_state.md R29). The right-hand sides use
the already updated `y` and `x`. -/
def circleFrom : Nat → Int → Int → Int → List Point
  | 0, _, _, _ => []
  | fuel + 1, x, y, err =>
    if y ≤ x then
      ⟨x, y⟩ ::
        if err < 0 then circleFrom fuel x (y + 1) (err + 2 * (y + 1) + 1)
        else circleFrom fuel (x - 1) (y + 1) (err + 2 * ((y + 1) - (x - 1)) + 1)
    else []

/-- `circle_steps(r)`, R90. `y` rises at every step and `x` never does, so `r + 1` steps reach the loop's own end. -/
def circleSteps (r : Int) : List Point := circleFrom (r.toNat + 1) r 0 (1 - r)

/-- The eight octant points of one step, in the order of R91. -/
def octantPoints (cx cy : Int) (o : Point) : List Point :=
  [⟨cx + o.x, cy + o.y⟩, ⟨cx + o.y, cy + o.x⟩, ⟨cx - o.y, cy + o.x⟩, ⟨cx - o.x, cy + o.y⟩,
   ⟨cx - o.x, cy - o.y⟩, ⟨cx - o.y, cy - o.x⟩, ⟨cx + o.y, cy - o.x⟩, ⟨cx + o.x, cy - o.y⟩]

/-- The plots of CIRC, R91. -/
def circPoints (cx cy r : Int) : List Point := (circleSteps r).flatMap (octantPoints cx cy)

/-- The four horizontal spans of one step, in the order of R92. -/
def spanPoints (tie : LineTie) (cx cy : Int) (o : Point) : List Point :=
  linePoints tie (cx - o.x) (cy + o.y) (cx + o.x) (cy + o.y) ++ linePoints tie (cx - o.y) (cy + o.x) (cx + o.y) (cy + o.x) ++
  linePoints tie (cx - o.x) (cy - o.y) (cx + o.x) (cy - o.y) ++ linePoints tie (cx - o.y) (cy - o.x) (cx + o.y) (cy - o.x)

/-- The plots of CIRCFILL, R92. -/
def circfillPoints (tie : LineTie) (cx cy r : Int) : List Point := (circleSteps r).flatMap (spanPoints tie cx cy)

/-! ## Commands -/

/-- `CLS`, R85: the whole screen region, whatever the dimensions, configured or not. -/
def execCls (s : State) : Result :=
  match memFill s Config.screenBase 0 Config.screenBytes with
  | .ok s' => respond .low 0 s'
  | .error st => raise st s

/-- `LINE x0, y0, x1, y1, color`, R86. -/
def execLine (x0 y0 x1 y1 col : Int) (s : State) : Result :=
  if configured s then drawPoints col (linePoints s.lineTie x0 y0 x1 y1) s else raise .notConfigured s

/-- `RECT x0, y0, x1, y1, color`, R88. -/
def execRect (x0 y0 x1 y1 col : Int) (s : State) : Result :=
  if configured s then drawPoints col (rectPoints x0 y0 x1 y1) s else raise .notConfigured s

/-- `RECTFILL x0, y0, x1, y1, color`, R89. -/
def execRectfill (x0 y0 x1 y1 col : Int) (s : State) : Result :=
  if configured s then drawPoints col (rectfillPoints s.width s.height x0 y0 x1 y1) s else raise .notConfigured s

/-- `CIRC cx, cy, r, color`, R91. -/
def execCirc (cx cy r col : Int) (s : State) : Result :=
  if configured s then drawPoints col (circPoints cx cy r) s else raise .notConfigured s

/-- `CIRCFILL cx, cy, r, color`, R92. -/
def execCircfill (cx cy r col : Int) (s : State) : Result :=
  if configured s then drawPoints col (circfillPoints s.lineTie cx cy r) s else raise .notConfigured s

end Sys2Proof.Machine
end

