-- ==== Sys2Proof/Machine/Screen.lean ====
section
/-! DEFINITION. CFG: the set-once screen dimensions (43_config.md R101 to R103). -/

namespace Sys2Proof.Machine

/-- `CFG w, h`, R102. The first given value of each dimension wins; a resulting pair of more than MAX_PIXELS pixels is
refused with OUT_OF_RANGE and sets neither (R103). -/
def execCfg (wv hv : Bool) (w h : Nat) (s : State) : Result :=
  let nwSet := s.wSet || wv
  let nw := if s.wSet then s.w.toNat else w
  let nhSet := s.hSet || hv
  let nh := if s.hSet then s.h.toNat else h
  if nwSet && nhSet && decide (Config.maxPixels < nw * nh) then raise .outOfRange s
  else
    respond .low 0
      { s with
        w := if !s.wSet && wv then BitVec.ofNat 16 w else s.w
        wSet := nwSet
        h := if !s.hSet && hv then BitVec.ofNat 16 h else s.h
        hSet := nhSet }

end Sys2Proof.Machine
end

