-- ==== Sys2Proof/Machine/Dispatch.lean ====
section
/-! DEFINITION. One arm per command of PRC-1: the meaning it calls (30_encoding.md R59). -/

namespace Sys2Proof.Machine

def exec (i : Instr) (s : State) : Host.Outcome State Fault Refusal :=
  match i with
  | .cfg wv hv w h => Sys2Proof.Machine.execCfg wv hv w h s
  | .xlate x y => Sys2Proof.Machine.execXlate x y s
  | .pget x y => Sys2Proof.Machine.execPget x y s
  | .pset x y col => Sys2Proof.Machine.execPset x y col s
  | .cls => Sys2Proof.Machine.execCls s
  | .line x0 y0 x1 y1 col => Sys2Proof.Machine.execLine x0 y0 x1 y1 col s
  | .rect x0 y0 x1 y1 col => Sys2Proof.Machine.execRect x0 y0 x1 y1 col s
  | .rectfill x0 y0 x1 y1 col => Sys2Proof.Machine.execRectfill x0 y0 x1 y1 col s
  | .circ cx cy r col => Sys2Proof.Machine.execCirc cx cy r col s
  | .circfill cx cy r col => Sys2Proof.Machine.execCircfill cx cy r col s
  | .color idx => Sys2Proof.Machine.execColor idx s
  | .pal idx => Sys2Proof.Machine.execPal idx s

end Sys2Proof.Machine
end

