-- ==== Sys2Proof/Machine/HostMem.lean ====
section
/-! DEFINITION. The host-side Flat Memory operations (20_memory.md R45 to R50): outside the core, on the RAM and ROM
that the core's state shares with the host. A failing check answers OUT_OF_RANGE to the host and changes nothing. -/

namespace Sys2Proof.Machine

/-- The host is told `a`. -/
def tellHost (a : HostAnswer) (s : State) : Result := .next { s with answer := some a }

/-- How a checked host operation ends: told done on success, OUT_OF_RANGE on failure with nothing changed. -/
def endHostOp (r : Except Status State) (s : State) : Result :=
  match r with
  | .ok s' => tellHost .done s'
  | .error _ => tellHost .outOfRange s

/-- An empty range needs no check; a non-empty one must lie in `[0, size)` at both ends (D26). -/
def rangeOk (a n : Int) (size : Nat) : Bool := decide (n = 0 ∨ (0 ≤ a ∧ a + n - 1 < (size : Int)))

/-- Host `read(addr)`, R45. -/
def hostRead (addr : Rat) (s : State) : Result :=
  match memRead s (truncZero addr) with
  | .ok b => tellHost (.byte b) s
  | .error _ => tellHost .outOfRange s

/-- Host `write(addr, val)`, R46. -/
def hostWrite (addr val : Rat) (s : State) : Result := endHostOp (memWrite s (truncZero addr) (hostValue val)) s

/-- Host `copy(dest, src, len)`, R47: through a temporary buffer, every end checked (90_conflicts.md C6). -/
def hostCopy (dest src len : Rat) (s : State) : Result :=
  let d := truncZero dest
  let c := truncZero src
  let n := truncZero len
  if decide (0 ≤ n) && rangeOk c n Config.ramSize && rangeOk d n Config.ramSize then
    tellHost .done (s.setRam d.toNat (Memory.bytes Config.ramInit s.ram c.toNat n.toNat))
  else tellHost .outOfRange s

/-- Host `restore(dest, src, len)`, ROM to RAM, R48. -/
def hostRestore (dest src len : Rat) (s : State) : Result :=
  let d := truncZero dest
  let c := truncZero src
  let n := truncZero len
  if decide (0 ≤ n) && rangeOk c n Config.romSize && rangeOk d n Config.ramSize then
    tellHost .done (s.setRam d.toNat (Memory.bytes Config.romInit s.rom c.toNat n.toNat))
  else tellHost .outOfRange s

/-- Host `store(dest, src, len)`, RAM to ROM, R49 (the ROM is writable by it: 90_conflicts.md C5). -/
def hostStore (dest src len : Rat) (s : State) : Result :=
  let d := truncZero dest
  let c := truncZero src
  let n := truncZero len
  if decide (0 ≤ n) && rangeOk c n Config.ramSize && rangeOk d n Config.romSize then
    tellHost .done (s.setRom d.toNat (Memory.bytes Config.ramInit s.ram c.toNat n.toNat))
  else tellHost .outOfRange s

/-- Host `store()` with every argument omitted: the entire ROM-sized window starting at 0, R49. -/
def hostStoreDefault (s : State) : Result := hostStore 0 0 (Config.romSize : Rat) s

/-- Host `fill(dest, val, len)`, R50. -/
def hostFill (dest val len : Rat) (s : State) : Result :=
  endHostOp (memFill s (truncZero dest) (hostValue val) (truncZero len)) s

end Sys2Proof.Machine
end

