-- ==== Sys2Proof/Machine/Engine.lean ====
section
/-! DEFINITION. The engine and its host interface: a command as one atomic step (70_reset_and_hazards.md R132, R138),
core reset (R127), reset in the middle of a command (U8), and the host's other actions (60_exceptions.md R124). -/

namespace Sys2Proof.Machine

/-- One command, from acceptance to response: an illegal word ends with ILLEGAL_COMMAND (60_exceptions.md R111), a
legal one runs. -/
def runCommand (cmd : CmdWord) (s : State) : Result :=
  match decode cmd with
  | .ok i => exec i s.accept
  | .error _ => raise .illegalCommand s.accept

/-- Core reset, R127: the registers and the interface; RAM and ROM are external and keep their contents (R128), and a
parameter never changes (10_state.md R31). `w` and `h` are unspecified (log entry 3). -/
def State.coreReset (s : State) : State :=
  { s with
    curColor := 0
    w := 0
    wSet := false
    h := 0
    hSet := false
    busy := false
    rsp := 0
    rspValid := false }

/-- RAM after the first `k` plots of a drawing command; an unconfigured core makes none (43_config.md R104). -/
def ramAfterPlots (col : Int) (pts : List Point) (k : Nat) (s : State) : Memory :=
  if configured s then
    match plotAll (resolve s col) (pts.take k) s with
    | .ok s' => s'.ram
    | .error _ => s.ram
  else s.ram

/-- RAM when a command is abandoned after `k` steps of its loop (plots, or bytes filled for CLS): the writes made so
far stay (R127, U8). A command that draws nothing has written nothing. -/
def abandonedRam (i : Instr) (k : Nat) (s : State) : Memory :=
  match i with
  | .cls => (s.setRam Config.screenBase (byteRun (min k Config.screenBytes) 0)).ram
  | .pset x y col => ramAfterPlots col [⟨x, y⟩] k s
  | .line x0 y0 x1 y1 col => ramAfterPlots col (linePoints s.lineTie x0 y0 x1 y1) k s
  | .rect x0 y0 x1 y1 col => ramAfterPlots col (rectPoints x0 y0 x1 y1) k s
  | .rectfill x0 y0 x1 y1 col => ramAfterPlots col (rectfillPoints s.width s.height x0 y0 x1 y1) k s
  | .circ cx cy r col => ramAfterPlots col (circPoints cx cy r) k s
  | .circfill cx cy r col => ramAfterPlots col (circfillPoints s.lineTie cx cy r) k s
  | .cfg _ _ _ _ => s.ram
  | .xlate _ _ => s.ram
  | .pget _ _ => s.ram
  | .color _ => s.ram
  | .pal _ => s.ram

/-- A command accepted and abandoned by a reset: the reset state with the RAM written so far, and no response (U8). -/
def runAbandoned (cmd : CmdWord) (k : Nat) (s : State) : Result :=
  match decode cmd with
  | .ok i => .next { s.coreReset with ram := abandonedRam i k s }
  | .error _ => .next s.coreReset

/-- A host access to RAM or ROM: only while BUSY = 0 (R133, U7). -/
def hostAccess (op : State → Result) (s : State) : Result :=
  if s.busy then .refused .hostAccessWhileBusy else op s

/-- One action of the host (60_exceptions.md R124), its own entry already taken off `input`. -/
def perform (a : HostAction) (s : State) : Result :=
  match a with
  | .command cmd => if s.busy then .refused .commandWhileBusy else runCommand cmd s
  | .poll => tellHost (.interface s.busy s.rspValid s.rsp) s
  | .read addr => hostAccess (hostRead addr) s
  | .write addr val => hostAccess (hostWrite addr val) s
  | .copy dest src len => hostAccess (hostCopy dest src len) s
  | .restore dest src len => hostAccess (hostRestore dest src len) s
  | .store dest src len => hostAccess (hostStore dest src len) s
  | .storeDefault => hostAccess hostStoreDefault s
  | .fill dest val len => hostAccess (hostFill dest val len) s
  | .reset => .next s.coreReset
  | .resetDuring cmd k => if s.busy then .refused .commandWhileBusy else runAbandoned cmd k s

/-- With no action of the host the idle core keeps all its state (R123); a state inside a command is no state of the
atomic model (R138). -/
def idle (s : State) : Result := if s.busy then .refused .midCommand else .next s

end Sys2Proof.Machine
end

