-- ==== Sys2Proof/Machine/Step.lean ====
section
/-! DEFINITION. One step: the host's next action, whole (70_reset_and_hazards.md R138), or idleness. -/

namespace Sys2Proof.Machine

/-- One step of engine and host in their one total order (20_memory.md R51). -/
def step (s : State) : Host.Outcome State Fault Refusal :=
  match s.input with
  | [] => idle s
  | a :: rest => perform a { s with input := rest }

/-- The state whose next step runs the opcode-table word: the word is the host's next action, and the engine is ready
to accept it (BUSY = 0). Log entry 1. -/
def State.withFetchWord (s : State) (nbits w : Nat) : State :=
  { s with busy := false, input := .command (tableWord nbits w) :: s.input }

end Sys2Proof.Machine
end

