-- ==== Sys2Proof/Machine/Asm.lean ====
section
/-! DEFINITION. The assembler syntax of 30_encoding.md R68 and the pseudo-instructions of R69, on one line of text as
a list of characters. It is a host tool: the core sees only the command words. Log entry 9. -/

namespace Sys2Proof.Machine

/-- What one operand of a line is: an integer, or `_`, the null operand of CFG (R69). -/
inductive AsmOperand where
  | num (v : Int)
  | blank
  deriving DecidableEq, Repr

/-- What one line of text stands for. -/
inductive AsmResult where
  /-- Only white space or a comment. -/
  | nothing
  | command (i : Instr)
  /-- Not a line of R68, or an operand that its field cannot express. -/
  | malformed
  deriving DecidableEq, Repr

/-- The mnemonic's letters, R59. -/
def mnemonicChars : Opcode → List Char
  | .cfg => ['C', 'F', 'G']
  | .xlate => ['X', 'L', 'A', 'T', 'E']
  | .pget => ['P', 'G', 'E', 'T']
  | .pset => ['P', 'S', 'E', 'T']
  | .cls => ['C', 'L', 'S']
  | .line => ['L', 'I', 'N', 'E']
  | .rect => ['R', 'E', 'C', 'T']
  | .rectfill => ['R', 'E', 'C', 'T', 'F', 'I', 'L', 'L']
  | .circ => ['C', 'I', 'R', 'C']
  | .circfill => ['C', 'I', 'R', 'C', 'F', 'I', 'L', 'L']
  | .color => ['C', 'O', 'L', 'O', 'R']
  | .pal => ['P', 'A', 'L']

/-- The twelve opcodes in the order of R59. -/
def allOpcodes : List Opcode :=
  [.cfg, .xlate, .pget, .pset, .cls, .line, .rect, .rectfill, .circ, .circfill, .color, .pal]

/-- Mnemonics are case-insensitive, R68. -/
def opcodeNamed (mn : List Char) : Option Opcode :=
  allOpcodes.find? fun o => decide (mnemonicChars o = mn.map Char.toUpper)

/-- The value of one digit in base 10 or 16. -/
def digitValue (base : Nat) (c : Char) : Option Nat :=
  let n := c.toUpper.toNat
  let v := if 48 ≤ n ∧ n ≤ 57 then n - 48 else if 65 ≤ n ∧ n ≤ 70 then n - 55 else base
  if v < base then some v else none

/-- The value of a run of digits that follows `acc`. -/
def readDigits (base : Nat) : List Char → Nat → Option Nat
  | [], acc => some acc
  | c :: cs, acc =>
    match digitValue base c with
    | some d => readDigits base cs (acc * base + d)
    | none => none

/-- A decimal or `0x` hexadecimal number, R68. -/
def readNumber : List Char → Option Nat
  | [] => none
  | ['0', 'x'] => none
  | '0' :: 'x' :: cs => readDigits 16 cs 0
  | cs => readDigits 10 cs 0

/-- An integer, which may be negative, R68. -/
def readInteger : List Char → Option Int
  | '-' :: cs => (readNumber cs).map fun n => -(n : Int)
  | cs => (readNumber cs).map fun n => (n : Int)

/-- A character that separates: space, tab, carriage return or line end. -/
def isBlank (c : Char) : Bool := decide (c.toNat = 32 ∨ c.toNat = 9 ∨ c.toNat = 13 ∨ c.toNat = 10)

/-- The text without leading and trailing white space. -/
def trimBlanks (cs : List Char) : List Char := ((cs.dropWhile isBlank).reverse.dropWhile isBlank).reverse

/-- The pieces of text between commas. -/
def splitCommas : List Char → List (List Char)
  | [] => [[]]
  | c :: cs =>
    match splitCommas cs with
    | [] => [[c]]
    | w :: ws => if c = ',' then [] :: w :: ws else (c :: w) :: ws

/-- One operand, R68 and R69. -/
def readOperand (cs : List Char) : Option AsmOperand :=
  match trimBlanks cs with
  | ['_'] => some .blank
  | t => (readInteger t).map .num

/-- Every operand of the list, if each can be read. -/
def readOperands : List (List Char) → Option (List AsmOperand)
  | [] => some []
  | t :: ts =>
    match readOperand t, readOperands ts with
    | some o, some os => some (o :: os)
    | _, _ => none

/-- The operands as integers; `_` stands in CFG only. -/
def integersOf : List AsmOperand → Option (List Int)
  | [] => some []
  | .num v :: os => (integersOf os).map (v :: ·)
  | .blank :: _ => none

/-- A dimension of CFG: given, or null as `_` (R69). -/
def dimensionOf : AsmOperand → Option (Bool × Nat)
  | .num v => if 0 ≤ v then some (true, v.toNat) else none
  | .blank => some (false, 0)

/-- The commands that take integers only, in R60's operand order; an omitted color is -1 (R69). -/
def integerForm (o : Opcode) (vs : List Int) : Option Instr :=
  match o, vs with
  | .xlate, [x, y] => some (.xlate x y)
  | .pget, [x, y] => some (.pget x y)
  | .pset, [x, y] => some (.pset x y (-1))
  | .pset, [x, y, col] => some (.pset x y col)
  | .cls, [] => some .cls
  | .line, [x0, y0, x1, y1] => some (.line x0 y0 x1 y1 (-1))
  | .line, [x0, y0, x1, y1, col] => some (.line x0 y0 x1 y1 col)
  | .rect, [x0, y0, x1, y1] => some (.rect x0 y0 x1 y1 (-1))
  | .rect, [x0, y0, x1, y1, col] => some (.rect x0 y0 x1 y1 col)
  | .rectfill, [x0, y0, x1, y1] => some (.rectfill x0 y0 x1 y1 (-1))
  | .rectfill, [x0, y0, x1, y1, col] => some (.rectfill x0 y0 x1 y1 col)
  | .circ, [cx, cy, r] => some (.circ cx cy r (-1))
  | .circ, [cx, cy, r, col] => some (.circ cx cy r col)
  | .circfill, [cx, cy, r] => some (.circfill cx cy r (-1))
  | .circfill, [cx, cy, r, col] => some (.circfill cx cy r col)
  | .color, [idx] => some (.color idx)
  | .pal, [idx] => some (.pal idx)
  | _, _ => none

/-- The instruction of a mnemonic with its operands, pseudo-forms included (R69). -/
def asmInstr (o : Opcode) (os : List AsmOperand) : Option Instr :=
  match o, os with
  | .cfg, [w, h] =>
    match dimensionOf w, dimensionOf h with
    | some (wv, wn), some (hv, hn) => some (.cfg wv hv wn hn)
    | _, _ => none
  | o, os =>
    match integersOf os with
    | some vs => integerForm o vs
    | none => none

/-- The operand texts after the mnemonic; none when only white space follows it. -/
def operandTexts (cs : List Char) : List (List Char) :=
  match trimBlanks cs with
  | [] => []
  | t => splitCommas t

/-- One line of assembly text, R68: a `;` starts a comment. -/
def assembleLine (line : List Char) : AsmResult :=
  match trimBlanks (line.takeWhile fun c => decide (c ≠ ';')) with
  | [] => .nothing
  | t =>
    match opcodeNamed (t.takeWhile fun c => !isBlank c), readOperands (operandTexts (t.dropWhile fun c => !isBlank c)) with
    | some o, some os =>
      match asmInstr o os with
      | some i => if i.wellFormed then .command i else .malformed
      | none => .malformed
    | _, _ => .malformed

end Sys2Proof.Machine
end

