-- ==== Sys2Proof/Machine/Bridge.lean ====
section
/-! DEFINITION. The Presentation Bridge's buffer (60_exceptions.md R125): host behaviour, outside the core (00_scope.md
R6), given as a function of the state because R125 fixes it exactly. -/

namespace Sys2Proof.Machine

/-- The color index stored at pixel index `p` of the screen region (R72, R75). -/
def colorAtIndex (s : State) (p : Nat) : Nibble := getNib (ramByte s (byteAddress p).toNat) (nibbleSel p)

/-- The three bytes of an entry in the order R, G, B (R125, D35). -/
def rgbBytes (e : Rgb) : List Byte := [e.r, e.g, e.b]

/-- The buffer of `W * H * 3` bytes in pixel-index order, R125: byte `3 * p` on holds the entry of pixel index `p`.
DESIGN CHOICE (log entry 14): before configuration, where R125 is silent and no rule may read `W` or `H` (10_state.md
R21), the buffer is empty. -/
def expandRgb (s : State) : List Byte :=
  if configured s then
    (List.range (s.w.toNat * s.h.toNat)).flatMap fun p => rgbBytes (paletteEntry s (colorAtIndex s p))
  else []

end Sys2Proof.Machine
end

