-- ==== Sys2Proof/Machine/Script.lean ====
section
/-! DEFINITION. How the host turns a call with script numbers into a command (60_exceptions.md R124 "convert
arguments", 92_eei_decisions.md D32; 93_implementation_defined.md U12, U13): coordinates are truncated toward zero, a
non-integer or omitted color becomes -1, and what 16 bits cannot express is refused at the host. Log entry 10. -/

namespace Sys2Proof.Machine

/-- A drawing or pixel call as a script writes it: rational coordinates, a color that may be omitted. -/
inductive ScriptCall where
  | xlate (x y : Rat)
  | pget (x y : Rat)
  | pset (x y : Rat) (col : Option Rat)
  | cls
  | line (x0 y0 x1 y1 : Rat) (col : Option Rat)
  | rect (x0 y0 x1 y1 : Rat) (col : Option Rat)
  | rectfill (x0 y0 x1 y1 : Rat) (col : Option Rat)
  | circ (cx cy r : Rat) (col : Option Rat)
  | circfill (cx cy r : Rat) (col : Option Rat)
  | color (idx : Option Rat)
  deriving DecidableEq, Repr

/-- A color argument: an integer as it is; a fraction or an omitted one is -1 (D32). -/
def scriptColor : Option Rat → Int
  | none => -1
  | some c => if c.den = 1 then c.num else -1

/-- The call with its arguments converted. -/
def ScriptCall.convert : ScriptCall → Instr
  | .xlate x y => .xlate (truncZero x) (truncZero y)
  | .pget x y => .pget (truncZero x) (truncZero y)
  | .pset x y col => .pset (truncZero x) (truncZero y) (scriptColor col)
  | .cls => .cls
  | .line x0 y0 x1 y1 col => .line (truncZero x0) (truncZero y0) (truncZero x1) (truncZero y1) (scriptColor col)
  | .rect x0 y0 x1 y1 col => .rect (truncZero x0) (truncZero y0) (truncZero x1) (truncZero y1) (scriptColor col)
  | .rectfill x0 y0 x1 y1 col => .rectfill (truncZero x0) (truncZero y0) (truncZero x1) (truncZero y1) (scriptColor col)
  | .circ cx cy r col => .circ (truncZero cx) (truncZero cy) (truncZero r) (scriptColor col)
  | .circfill cx cy r col => .circfill (truncZero cx) (truncZero cy) (truncZero r) (scriptColor col)
  | .color idx => .color (scriptColor idx)

/-- The command word the host issues for the call, or none where an operand does not fit 16 bits (U13). -/
def ScriptCall.word (c : ScriptCall) : Option CmdWord :=
  if c.convert.wellFormed then some (encode c.convert) else none

end Sys2Proof.Machine
end

