-- ==== Sys2Proof/Safety.lean ====
section
/-! DEFINITION. What a sound state is, in the terms the claims use: the canonical form of the two byte spaces, the
product bound of 10_state.md R23 and R33, an idle interface between commands, and a response word as
30_encoding.md R66 lays it out. -/

namespace Sys2Proof.Machine

/-- The response word keeps the layout of R66 and R106: a code 0x00 to 0x04, zeros in [31:9], and no NIB and no DATA
unless the status is OK. -/
structure LegalResponse (r : RspWord) : Prop where
  code : (rspStatus r).toNat ≤ 4
  zeros : rspZero r = 0
  failure : rspStatus r ≠ 0 → rspNib r = 0 ∧ rspData r = 0

/-- While the core is configured, `W * H <= MAX_PIXELS` (R23). -/
def DimensionsOk (s : State) : Prop :=
  configured s = true → s.w.toNat * s.h.toNat ≤ Config.maxPixels

/-- The invariant of every state between commands. -/
structure State.Inv (s : State) : Prop where
  ram : Memory.wf Config.ramInit Config.ramSize s.ram
  rom : Memory.wf Config.romInit Config.romSize s.rom
  dims : DimensionsOk s
  idle : s.busy = false
  rsp : LegalResponse s.rsp

/-- The color of the pixel `(x, y)` as RAM holds it (40_addressing_pixel.md R72, R75). -/
def pixelAt (s : State) (x y : Int) : Nibble :=
  getNib (ramByte s (byteAddress (pixelIndex s x y)).toNat) (nibbleSel (pixelIndex s x y))

/-- The pixel `(x, y)` has the nibble `n` of the byte at address `a` (R72). -/
def PixelHas (s : State) (x y : Int) (a : Nat) (n : NibbleSel) : Prop :=
  byteAddress (pixelIndex s x y) = (a : Int) ∧ nibbleSel (pixelIndex s x y) = n

/-- One of the plots `pts` on a configured core writes the nibble `n` of byte `a` (R74). -/
def PlotsReach (s : State) (pts : List Point) (a : Nat) (n : NibbleSel) : Prop :=
  configured s = true ∧ ∃ pt ∈ pts, onScreen s pt.x pt.y = true ∧ PixelHas s pt.x pt.y a n

/-- The first `k` writes of a command reach the nibble `n` of byte `a`: its first `k` calls of plot in the order of
41_raster.md (those of the clipped loops for RECTFILL), or the first `k` bytes of CLS from 0x6000 up. How the writes are
counted is the model's choice, log entry 2. -/
def FirstWrites (i : Instr) (k : Nat) (s : State) (a : Nat) (n : NibbleSel) : Prop :=
  match i with
  | .cls => 0x6000 ≤ a ∧ a < 0x6000 + min k 8192
  | .pset x y _ => PlotsReach s ([⟨x, y⟩].take k) a n
  | .line x0 y0 x1 y1 _ => PlotsReach s ((linePoints s.lineTie x0 y0 x1 y1).take k) a n
  | .rect x0 y0 x1 y1 _ => PlotsReach s ((rectPoints x0 y0 x1 y1).take k) a n
  | .rectfill x0 y0 x1 y1 _ => PlotsReach s ((rectfillPoints s.width s.height x0 y0 x1 y1).take k) a n
  | .circ cx cy r _ => PlotsReach s ((circPoints cx cy r).take k) a n
  | .circfill cx cy r _ => PlotsReach s ((circfillPoints s.lineTie cx cy r).take k) a n
  | .cfg _ _ _ _ => False
  | .xlate _ _ => False
  | .pget _ _ => False
  | .color _ => False
  | .pal _ => False

/-- The command that took `s` to `t` ended OK with no result and painted exactly the on-screen pixels of the set `S`
in the color `c` (41_raster.md R84, R94): nothing but RAM and the interface changed, every on-screen pixel of `S` holds
`c`, every other on-screen pixel is as before, every nibble of RAM that no painted pixel has is as before, and every
byte that holds no painted pixel reads as before. -/
structure PaintsExactly (s t : State) (c : Nibble) (S : Int → Int → Prop) : Prop where
  rest : t = { s with ram := t.ram, rsp := 0, rspValid := true, busy := false }
  painted : ∀ x y, onScreen s x y = true → S x y → pixelAt t x y = c
  others : ∀ x y, onScreen s x y = true → ¬ S x y → pixelAt t x y = pixelAt s x y
  nibbles : ∀ a n, (∀ x y, onScreen s x y = true → S x y → ¬ PixelHas s x y a n) →
    getNib (ramByte t a) n = getNib (ramByte s a) n
  bytes : ∀ a : Nat, (∀ x y, onScreen s x y = true → S x y → byteAddress (pixelIndex s x y) ≠ (a : Int)) →
    ramByte t a = ramByte s a

end Sys2Proof.Machine
end

