-- ==== Sys2Proof/Certificates/Slice0/Obligations.lean ====
section
/-! DEFINITION. The statements for the provers. Each formalises a numbered rule of spec/, or follows from the rules its
docstring names; OBLIGATIONS.json lists them. -/

open Sys2Proof
open Sys2Proof.Machine

/-! ## Encoding (30_encoding.md) -/

/-- R57, R58, R60, R62: encoding a well-formed instruction and decoding the word gives the instruction back, with
every operand at every value its field admits. -/
def Obligations.DecodeOfEncodeIsInstr : Prop :=
  ∀ i : Instr, i.wellFormed = true → decode (encode i) = .ok i

/-- R58, R60, R61: what the decoder reads is well-formed, and encoding it gives the word back with the fields that R60
marks "-" set to zero. -/
def Obligations.EncodeOfDecodeKeepsUsedBits : Prop :=
  ∀ (cmd : CmdWord) (i : Instr), decode cmd = .ok i →
    i.wellFormed = true ∧ encode i = cmd &&& usedBits i.opcode

/-- R61: a legal opcode's unused operand fields give the same behaviour as zero. -/
def Obligations.UnusedOperandFieldsIgnored : Prop :=
  ∀ (cmd : CmdWord) (o : Opcode) (s : State), opcodeOf (opField cmd) = some o →
    runCommand cmd s = runCommand (cmd &&& usedBits o) s

/-- R63: which words are illegal, that exactly they are refused by the decoder, and that an illegal command ends with
ILLEGAL_COMMAND (code 4) and changes no state but the interface. -/
def Obligations.IllegalWordsEndIllegalCommand : Prop :=
  ∀ (cmd : CmdWord) (s : State),
    let op := (cmd.extractLsb' 0 8).toNat
    let illegal := op = 0 ∨ 0x0D ≤ op ∨ (op = 1 ∧ cmd.extractLsb' 10 6 ≠ 0) ∨ (op ≠ 1 ∧ cmd.extractLsb' 8 8 ≠ 0)
    ((∃ e, decode cmd = .error e) ↔ illegal) ∧
      (illegal → runCommand cmd s = .next { s with rsp := 4, rspValid := true, busy := false })

/-- The rows of spec/opcode_table.json: a word decodes to a row's command exactly when it matches the row's `match`
under its `mask`. -/
def Obligations.OpcodeTableRowsDecode : Prop :=
  ∀ row ∈ [(Opcode.cfg, (0x01 : CmdWord), (0xFCFF : CmdWord)), (.xlate, 0x02, 0xFFFF), (.pget, 0x03, 0xFFFF),
      (.pset, 0x04, 0xFFFF), (.cls, 0x05, 0xFFFF), (.line, 0x06, 0xFFFF), (.rect, 0x07, 0xFFFF),
      (.rectfill, 0x08, 0xFFFF), (.circ, 0x09, 0xFFFF), (.circfill, 0x0A, 0xFFFF), (.color, 0x0B, 0xFFFF),
      (.pal, 0x0C, 0xFFFF)],
    ∀ cmd : CmdWord, (∃ i, decode cmd = .ok i ∧ i.opcode = row.1) ↔ cmd &&& row.2.2 = row.2.1

/-- R70: the worked command words decode to the instructions they stand for, and encode back to the same words. -/
def Obligations.WorkedEncodingsDecode : Prop :=
  ∀ row ∈ [((0x000000000000008000800301 : CmdWord), Instr.cfg true true 128 128),
      (0x000000000000000000A00101, .cfg true false 160 0),
      (0x000000000000000000000002, .xlate 0 0),
      (0x000000000000007FFFFF0003, .pget (-1) 127),
      (0x00000000FFFF000000010004, .pset 1 0 (-1)),
      (0x000000000000000000000005, .cls),
      (0x000900010003000000000006, .line 0 0 3 1 9),
      (0x000500000000000400040007, .rect 4 4 0 0 5),
      (0x000500040004000000000008, .rectfill 0 0 4 4 5),
      (0x000000030002000A000A0009, .circ 10 10 2 3),
      (0x00000008000A00400040000A, .circfill 64 64 10 8),
      (0x00000000000000000007000B, .color 7),
      (0x00000000000000000000000C, .pal 0)],
    decode row.1 = .ok row.2 ∧ encode row.2 = row.1

/-- R70: the worked lines of assembly text give their words; and so do, by R68 and R69, lines in other case, with a
comment, with hexadecimal operands, a full form of a pseudo-form, and `CFG` without a width. -/
def Obligations.AssemblyTextGivesWorkedWords : Prop :=
  ∀ row ∈ [("CFG 128, 128".toList, (0x000000000000008000800301 : CmdWord)),
      ("CFG 160, _".toList, 0x000000000000000000A00101),
      ("XLATE 0, 0".toList, 0x000000000000000000000002),
      ("PGET -1, 127".toList, 0x000000000000007FFFFF0003),
      ("PSET 1, 0".toList, 0x00000000FFFF000000010004),
      ("CLS".toList, 0x000000000000000000000005),
      ("LINE 0, 0, 3, 1, 9".toList, 0x000900010003000000000006),
      ("RECT 4, 4, 0, 0, 5".toList, 0x000500000000000400040007),
      ("RECTFILL 0, 0, 4, 4, 5".toList, 0x000500040004000000000008),
      ("CIRC 10, 10, 2, 3".toList, 0x000000030002000A000A0009),
      ("CIRCFILL 64, 64, 10, 8".toList, 0x00000008000A00400040000A),
      ("COLOR 7".toList, 0x00000000000000000007000B),
      ("PAL 0".toList, 0x00000000000000000000000C),
      ("PSET 1, 0, -1".toList, 0x00000000FFFF000000010004),
      ("cls ; clear".toList, 0x000000000000000000000005),
      ("Circ 0xA, 10, 0x2, 3".toList, 0x000000030002000A000A0009),
      ("CFG _, 102".toList, 0x000000000000006600000201)],
    ∃ i, assembleLine row.1 = .command i ∧ encode i = row.2

/-! ## The step, reset and the invariant -/

/-- The host's next action is a command, the core is idle and the word decodes: the step is the command's meaning on
the state with the word taken, BUSY set and RSP_VALID cleared (R27, R28, R138). -/
def Obligations.StepRunsDecodedCommand : Prop :=
  ∀ (s : State) (cmd : CmdWord) (rest : List HostAction) (i : Instr),
    s.busy = false → s.input = .command cmd :: rest → decode cmd = .ok i →
    step s = exec i { s with input := rest, busy := true, rspValid := false }

/-- Every command ends with a response: RSP_VALID is 1, BUSY is 0, and the response word has the layout of R66 with a
code of R106. -/
def Obligations.EveryCommandEndsWithLegalResponse : Prop :=
  ∀ (cmd : CmdWord) (s : State), ∃ t, runCommand cmd s = .next t ∧
    t.rspValid = true ∧ t.busy = false ∧ (rspStatus t.rsp).toNat ≤ 4 ∧ rspZero t.rsp = 0 ∧
    (rspStatus t.rsp ≠ 0 → rspNib t.rsp = 0 ∧ rspData t.rsp = 0)

/-- The invariant of every state between commands is kept by every step: canonical memories, the product bound of R23,
an idle interface, a response laid out as R66 says. -/
def Obligations.StepKeepsStateInvariant : Prop :=
  ∀ s t : State, s.Inv → step s = .next t → t.Inv

/-- The invariant holds at reset. -/
def Obligations.ResetMeetsStateInvariant : Prop := State.reset.Inv

/-- R127 and R128 at power-on: CUR_COLOR, the set flags and the interface are 0, palette entry 0 is black, every RAM
byte is 0, and every ROM byte is that of the parameter ROM_INIT (its form is log entry 5). -/
def Obligations.PowerOnResetValues : Prop :=
  State.reset.curColor = 0 ∧ State.reset.wSet = false ∧ State.reset.hSet = false ∧ State.reset.busy = false ∧
    State.reset.rsp = 0 ∧ State.reset.rspValid = false ∧ paletteEntry State.reset 0 = ⟨0, 0, 0⟩ ∧
    (∀ a, ramByte State.reset a = 0) ∧ ∀ a, romByte State.reset a = Config.romInit a

/-- R127, core reset while the host's next action is reset, in every state: the registers and the interface are set as
at power-on, RAM, ROM and the palette are as before. -/
def Obligations.CoreResetKeepsRamAndPalette : Prop :=
  ∀ (s : State) (rest : List HostAction), s.input = .reset :: rest →
    ∃ t, step s = .next t ∧ t.curColor = 0 ∧ t.wSet = false ∧ t.hSet = false ∧ t.busy = false ∧ t.rsp = 0 ∧
      t.rspValid = false ∧ t.palette = s.palette ∧ t.lineTie = s.lineTie ∧ t.ram = s.ram ∧ t.rom = s.rom ∧
      t.input = rest

/-- R127, U8: a legal command abandoned by a reset after the first `k` writes of its loop gives no response and leaves
the reset registers, and RAM holds the writes made so far: each nibble that one of the first `k` writes reaches is as
the whole command leaves it, every other nibble is as before; so none is changed at the start, and all are as the
command leaves them after enough steps. What the first `k` writes are (`FirstWrites`: the first `k` calls of plot, or
the first `k` bytes of CLS) is the model's choice, log entry 2. -/
def Obligations.AbandonedCommandKeepsItsWrites : Prop :=
  ∀ (s : State) (cmd : CmdWord) (i : Instr) (rest : List HostAction),
    s.busy = false → DimensionsOk s → decode cmd = .ok i →
    ∃ u : State, exec i (State.accept { s with input := rest }) = .next u ∧
      ∃ last : Nat, ∀ k : Nat, ∃ t : State,
        step { s with input := .resetDuring cmd k :: rest } = .next t ∧
        t.rspValid = false ∧ t.rsp = 0 ∧ t.busy = false ∧ t.curColor = 0 ∧ t.wSet = false ∧ t.hSet = false ∧
        t.rom = s.rom ∧ (k = 0 → ∀ a, ramByte t a = ramByte s a) ∧ (last ≤ k → ∀ a, ramByte t a = ramByte u a) ∧
        ∀ a n, (FirstWrites i k s a n → getNib (ramByte t a) n = getNib (ramByte u a) n) ∧
          (¬ FirstWrites i k s a n → getNib (ramByte t a) n = getNib (ramByte s a) n)

/-- R33 (which the spec derives): CUR_COLOR is a color index, a set flag goes back to 0 only at a reset, a configured
core keeps the product bound, and the palette never changes. -/
def Obligations.RegisterInvariantsBetweenCommands : Prop :=
  ∀ s t : State, DimensionsOk s → step s = .next t →
    t.curColor.toNat ≤ 15 ∧ DimensionsOk t ∧ t.palette = s.palette ∧ paletteEntry t 0 = ⟨0, 0, 0⟩ ∧
    ((∀ rest, s.input ≠ .reset :: rest) → (∀ cmd k rest, s.input ≠ .resetDuring cmd k :: rest) →
      (s.wSet = true → t.wSet = true ∧ t.w = s.w) ∧ (s.hSet = true → t.hSet = true ∧ t.h = s.h))

/-- R134: on a configured core a CFG returns OK and changes nothing. -/
def Obligations.ConfiguredCfgChangesNothing : Prop :=
  ∀ (s : State) (wv hv : Bool) (w h : Nat), DimensionsOk s → configured s = true →
    exec (.cfg wv hv w h) s = .next { s with rsp := 0, rspValid := true, busy := false }

/-! ## Errors (60_exceptions.md) -/

/-- R107: a command whose status is not OK writes the zero-extended status to RSP, sets RSP_VALID, clears BUSY, and
changes nothing else (the part that the spec derives). In states with W * H > 16384, which no run reaches, a failing
plot restores RAM by the model's choice, log entry 12. -/
def Obligations.FailingCommandChangesNothing : Prop :=
  ∀ (cmd : CmdWord) (s t : State), runCommand cmd s = .next t → rspStatus t.rsp ≠ 0 →
    t = { s with rsp := (rspStatus t.rsp).setWidth 64, rspValid := true, busy := false }

/-- R106: the codes a command can end with, and which commands raise which. -/
def Obligations.StatusCodesByCommand : Prop :=
  ∀ (cmd : CmdWord) (s t : State), DimensionsOk s → runCommand cmd s = .next t →
    (rspStatus t.rsp).toNat ≤ 4 ∧
    (rspStatus t.rsp = 1 → ∃ i, decode cmd = .ok i ∧ i.opcode ∈ [Opcode.pget, .pal, .cfg]) ∧
    (rspStatus t.rsp = 2 → ∃ i, decode cmd = .ok i ∧ i.opcode = .color) ∧
    (rspStatus t.rsp = 3 → ∃ i, decode cmd = .ok i ∧
      i.opcode ∈ [Opcode.xlate, .pget, .pset, .line, .rect, .rectfill, .circ, .circfill]) ∧
    (rspStatus t.rsp = 4 ↔ ∃ e, decode cmd = .error e)

/-- R104, R110: the eight commands that need the core configured end with NOT_CONFIGURED (code 3) and do nothing else
while either dimension is unset; the other four never do. -/
def Obligations.UnconfiguredCommandsRaise : Prop :=
  (∀ (i : Instr) (s : State), i.opcode ∈ [Opcode.xlate, .pget, .pset, .line, .rect, .rectfill, .circ, .circfill] →
    (s.wSet = false ∨ s.hSet = false) → exec i s = .next { s with rsp := 3, rspValid := true, busy := false }) ∧
  (∀ (i : Instr) (s t : State), i.opcode ∈ [Opcode.cfg, .cls, .color, .pal] → exec i s = .next t →
    rspStatus t.rsp ≠ 3)

/-- R126 (which the spec derives): a failed command issued again fails again with the same response. In states with W
* H > 16384, which no run reaches, this rests on the model's choice of log entry 12. -/
def Obligations.RetryFailsTheSameWay : Prop :=
  ∀ (cmd : CmdWord) (s t : State), runCommand cmd s = .next t → rspStatus t.rsp ≠ 0 →
    ∃ u, runCommand cmd t = .next u ∧ u.rsp = t.rsp

/-! ## Translator and pixels (40_addressing_pixel.md) -/

/-- R76 with R72 and R11: an unconfigured core answers NOT_CONFIGURED (code 3); on a configured core XLATE answers OK
with the floored address as 32-bit two's complement and the parity as NIB, and changes nothing but the interface, for
every coordinate. -/
def Obligations.XlateAnswersAddressAndNibble : Prop :=
  ∀ (s : State) (x y : Int),
    (configured s = false → exec (.xlate x y) s = .next { s with rsp := 3, rspValid := true, busy := false }) ∧
    (configured s = true →
      let p := x + ((s.h.toNat : Int) - y - 1) * (s.w.toNat : Int)
      ∃ r : RspWord, exec (.xlate x y) s = .next { s with rsp := r, rspValid := true, busy := false } ∧
        rspStatus r = 0 ∧ rspZero r = 0 ∧ rspData r = BitVec.ofInt 32 (0x6000 + Int.fdiv p 2) ∧
        ((rspNib r).toNat : Int) = Int.fmod p 2)

/-- R14 (its part that the spec derives): with 16-bit operands and the product bound the pixel index lies between
-2^31 and 2147418112, so the address that XLATE returns in 32 bits is exact. -/
def Obligations.PixelIndexFitsThirtyTwoBits : Prop :=
  ∀ (s : State) (x y : Int), DimensionsOk s → configured s = true → isS16 x = true → isS16 y = true →
    -(2 ^ 31) ≤ pixelIndex s x y ∧ pixelIndex s x y ≤ 2147418112 ∧
      (BitVec.ofInt 32 (byteAddress (pixelIndex s x y))).toInt = byteAddress (pixelIndex s x y)

/-- R73 (which the spec derives): an on-screen pixel of a configured core lies in the screen region, distinct
on-screen pixels have distinct (address, nibble) pairs, and two neighbours share a byte exactly when the left one's
index is even. -/
def Obligations.OnScreenPixelsLieInScreenRegion : Prop :=
  ∀ (s : State) (x y : Int), DimensionsOk s → configured s = true → onScreen s x y = true →
    (0 ≤ pixelIndex s x y ∧ pixelIndex s x y < s.width * s.height ∧ s.width * s.height ≤ 16384) ∧
    (0x6000 ≤ byteAddress (pixelIndex s x y) ∧ byteAddress (pixelIndex s x y) ≤ 0x7FFF) ∧
    (∀ u v : Int, onScreen s u v = true →
      byteAddress (pixelIndex s u v) = byteAddress (pixelIndex s x y) →
      nibbleSel (pixelIndex s u v) = nibbleSel (pixelIndex s x y) → u = x ∧ v = y) ∧
    (byteAddress (pixelIndex s (x + 1) y) = byteAddress (pixelIndex s x y) ↔ pixelIndex s x y % 2 = 0)

/-- R77: an unconfigured core answers NOT_CONFIGURED (code 3); on a configured core PGET answers the stored nibble,
the low one for an even index and the high one for an odd index, and OUT_OF_RANGE (code 1) when the address is outside
RAM; it writes no state. -/
def Obligations.PgetReadsStoredNibble : Prop :=
  ∀ (s : State) (x y : Int),
    (configured s = false → exec (.pget x y) s = .next { s with rsp := 3, rspValid := true, busy := false }) ∧
    (configured s = true →
      let p := x + ((s.h.toNat : Int) - y - 1) * (s.w.toNat : Int)
      let a := 0x6000 + Int.fdiv p 2
      (0 ≤ a → a < 32768 → ∃ r : RspWord,
        exec (.pget x y) s = .next { s with rsp := r, rspValid := true, busy := false } ∧
        rspStatus r = 0 ∧ rspNib r = 0 ∧ rspZero r = 0 ∧
        (rspData r).toNat =
          if Int.fmod p 2 = 0 then (ramByte s a.toNat).toNat % 16 else (ramByte s a.toNat).toNat / 16) ∧
      (a < 0 ∨ 32768 ≤ a →
        exec (.pget x y) s = .next { s with rsp := 1, rspValid := true, busy := false }))

/-- R74 with R78: an unconfigured core answers NOT_CONFIGURED (code 3); on a configured core PSET on-screen writes one
byte, the addressed nibble by AND and OR with the resolved color, and leaves every other byte and register; off-screen
it is an OK no-op. -/
def Obligations.PsetWritesOneNibble : Prop :=
  ∀ (s : State) (x y col : Int), DimensionsOk s →
    (configured s = false → exec (.pset x y col) s = .next { s with rsp := 3, rspValid := true, busy := false }) ∧
    (configured s = true →
      let c : Byte := (if 0 ≤ col ∧ col ≤ 15 then BitVec.ofInt 8 col else s.curColor.setWidth 8)
      let p := x + ((s.h.toNat : Int) - y - 1) * (s.w.toNat : Int)
      let a := (0x6000 + Int.fdiv p 2).toNat
      ∃ t, exec (.pset x y col) s = .next t ∧
        t = { s with ram := t.ram, rsp := 0, rspValid := true, busy := false } ∧
        (0 ≤ x ∧ x < s.w.toNat ∧ 0 ≤ y ∧ y < s.h.toNat →
          0x6000 ≤ a ∧ a ≤ 0x7FFF ∧
          ramByte t a = (if Int.fmod p 2 = 0 then ramByte s a &&& 0xF0 ||| c else ramByte s a &&& 0x0F ||| c <<< 4) ∧
          ∀ b : Nat, b ≠ a → ramByte t b = ramByte s b) ∧
        (¬ (0 ≤ x ∧ x < s.w.toNat ∧ 0 ≤ y ∧ y < s.h.toNat) → ∀ b : Nat, ramByte t b = ramByte s b))

/-- R80 (which the spec derives), for a configured core: PSET then PGET returns the color, PSET changes no other
nibble of RAM, an off-screen PSET changes no byte, and PGET changes no state but the interface. -/
def Obligations.PsetThenPgetReturnsColor : Prop :=
  ∀ (s : State) (x y : Int), DimensionsOk s → configured s = true →
    (∀ c : Int, onScreen s x y = true → 0 ≤ c → c ≤ 15 →
      ∃ t u, exec (.pset x y c) s = .next t ∧ exec (.pget x y) t.accept = .next u ∧
        u.rsp = BitVec.ofInt 64 (c * 2 ^ 32) ∧
        ∀ a n, ¬ PixelHas s x y a n → getNib (ramByte t a) n = getNib (ramByte s a) n) ∧
    (∀ col t, onScreen s x y = false → exec (.pset x y col) s = .next t → ∀ a, ramByte t a = ramByte s a) ∧
    (∀ t, exec (.pget x y) s = .next t → t = { s with rsp := t.rsp, rspValid := true, busy := false })

/-- R79 (which the spec derives): the aliasing table at W = H = 128. Each row gives x, y, the pixel index, the address
and the nibble; PGET answers OK with that nibble of RAM where the address lies in RAM (so (128, 5) reads what (0, 4)
reads), and OUT_OF_RANGE (code 1) at 0x8000. -/
def Obligations.AliasingTableAt128 : Prop :=
  ∀ s : State, s.w = 128 → s.h = 128 → configured s = true →
    (∀ row ∈ [((0 : Int), (0 : Int), (16256 : Int), (0x7FC0 : Int), NibbleSel.low), (0, 127, 0, 0x6000, .low),
        (127, 0, 16383, 0x7FFF, .high), (128, 5, 15744, 0x7EC0, .low), (0, 4, 15744, 0x7EC0, .low),
        (0, 128, -128, 0x5FC0, .low), (-1, 127, -1, 0x5FFF, .high), (0, -1, 16384, 0x8000, .low),
        (128, 0, 16384, 0x8000, .low)],
      pixelIndex s row.1 row.2.1 = row.2.2.1 ∧ byteAddress (pixelIndex s row.1 row.2.1) = row.2.2.2.1 ∧
        nibbleSel (pixelIndex s row.1 row.2.1) = row.2.2.2.2 ∧
        (row.2.2.2.1 < 0x8000 → ∃ r : RspWord,
          exec (.pget row.1 row.2.1) s = .next { s with rsp := r, rspValid := true, busy := false } ∧
          rspStatus r = 0 ∧ (rspData r).toNat = (getNib (ramByte s row.2.2.2.1.toNat) row.2.2.2.2).toNat) ∧
        (row.2.2.2.1 = 0x8000 →
          exec (.pget row.1 row.2.1) s = .next { s with rsp := 1, rspValid := true, busy := false })) ∧
    exec (.pget 128 5) s = exec (.pget 0 4) s

/-! ## Rasterizer (41_raster.md) -/

/-- R85: CLS answers OK in every state, configured or not, zeroes bytes 0x6000 to 0x7FFF, and changes nothing else. -/
def Obligations.ClsZeroesScreenRegion : Prop :=
  ∀ s : State, ∃ t, exec .cls s = .next t ∧
    t = { s with ram := t.ram, rsp := 0, rspValid := true, busy := false } ∧
    ∀ a : Nat, ramByte t a = if 0x6000 ≤ a ∧ a ≤ 0x7FFF then 0 else ramByte s a

/-- R86 with R84: an unconfigured core answers NOT_CONFIGURED (code 3); LINE on a configured core answers OK and
paints exactly the on-screen points of its walk in the resolved color, under either setting of LINE_TIE. -/
def Obligations.LinePaintsItsWalk : Prop :=
  ∀ (s : State) (x0 y0 x1 y1 col : Int), DimensionsOk s →
    (configured s = false → exec (.line x0 y0 x1 y1 col) s = .next { s with rsp := 3, rspValid := true, busy := false }) ∧
    (configured s = true → ∃ t, exec (.line x0 y0 x1 y1 col) s = .next t ∧
        PaintsExactly s t (if 0 ≤ col ∧ col ≤ 15 then BitVec.ofInt 4 col else s.curColor)
          fun x y => ⟨x, y⟩ ∈ linePoints s.lineTie x0 y0 x1 y1)

/-- R83 (which the spec derives), under either LINE_TIE: the walk has `max(|x1 - x0|, |y1 - y0|) + 1` points, starts
and ends at the end points, moves by Chebyshev distance 1, visits no pixel twice, and covers the whole run when it is
horizontal or vertical. -/
def Obligations.LineWalkProperties : Prop :=
  ∀ (tie : LineTie) (x0 y0 x1 y1 : Int),
    let ps := linePoints tie x0 y0 x1 y1
    ((ps.length : Int) = max |x1 - x0| |y1 - y0| + 1) ∧
    ps.head? = some ⟨x0, y0⟩ ∧ ps.getLast? = some ⟨x1, y1⟩ ∧
    (∀ (k : Nat) (p q : Point), ps[k]? = some p → ps[k + 1]? = some q → max |q.x - p.x| |q.y - p.y| = 1) ∧
    ps.Nodup ∧
    (y0 = y1 → ∀ x y, (⟨x, y⟩ : Point) ∈ ps ↔ y = y0 ∧ min x0 x1 ≤ x ∧ x ≤ max x0 x1) ∧
    (x0 = x1 → ∀ x y, (⟨x, y⟩ : Point) ∈ ps ↔ x = x0 ∧ min y0 y1 ≤ y ∧ y ≤ max y0 y1)

/-- R82, R83: the loop of `line_core` ends by its own exit test: any larger bound on its plots gives the same walk.
One pass of the loop plots and, away from the end point, takes R82's step tests: GT_LT steps in x when `e2 > -dy` and
in y when `e2 < dx`, GE_LE when `e2 >= -dy` and when `e2 <= dx`. The two settings differ only when `e2` equals `-dy`
or `dx`, and there GE_LE steps and GT_LT does not. -/
def Obligations.LineLoopEndsByItself : Prop :=
  (∀ (tie : LineTie) (x0 y0 x1 y1 : Int) (n : Nat), max (x1 - x0).natAbs (y1 - y0).natAbs + 1 ≤ n →
    lineFrom ⟨tie, x1, y1, |x1 - x0|, |y1 - y0|, if x0 < x1 then 1 else -1, if y0 < y1 then 1 else -1⟩ n x0 y0
      (|x1 - x0| - |y1 - y0|) = linePoints tie x0 y0 x1 y1) ∧
  (∀ (tie : LineTie) (x1 y1 dx dy sx sy x y err : Int) (fuel : Nat),
    let k : LineWalk := ⟨tie, x1, y1, dx, dy, sx, sy⟩
    let e2 := 2 * err
    let goX : Bool := match tie with | .gtLt => decide (-dy < e2) | .geLe => decide (-dy ≤ e2)
    let goY : Bool := match tie with | .gtLt => decide (e2 < dx) | .geLe => decide (e2 ≤ dx)
    (x = x1 ∧ y = y1 → lineFrom k (fuel + 1) x y err = [⟨x, y⟩]) ∧
    (¬ (x = x1 ∧ y = y1) → lineFrom k (fuel + 1) x y err =
      ⟨x, y⟩ :: lineFrom k fuel (if goX then x + sx else x) (if goY then y + sy else y)
        (err - (if goX then dy else 0) + (if goY then dx else 0)))) ∧
  (∀ e2 d : Int, (stepX .gtLt e2 d ≠ stepX .geLe e2 d ↔ e2 = -d) ∧ (stepY .gtLt e2 d ≠ stepY .geLe e2 d ↔ e2 = d)) ∧
  ∀ d : Int, stepX .gtLt (-d) d = false ∧ stepX .geLe (-d) d = true ∧
    stepY .gtLt d d = false ∧ stepY .geLe d d = true

/-- R86, source section 8: a LINE from a point to itself is the PSET of that point. -/
def Obligations.SinglePointLineIsPset : Prop :=
  ∀ (s : State) (x y col : Int), exec (.line x y x y col) s = exec (.pset x y col) s

/-- R88 with R87: an unconfigured core answers NOT_CONFIGURED (code 3); on a configured core RECT paints exactly the
outline of the normalised box, corners included. -/
def Obligations.RectPaintsOutline : Prop :=
  ∀ (s : State) (x0 y0 x1 y1 col : Int), DimensionsOk s →
    (configured s = false → exec (.rect x0 y0 x1 y1 col) s = .next { s with rsp := 3, rspValid := true, busy := false }) ∧
    (configured s = true → ∃ t, exec (.rect x0 y0 x1 y1 col) s = .next t ∧
        PaintsExactly s t (if 0 ≤ col ∧ col ≤ 15 then BitVec.ofInt 4 col else s.curColor)
          fun x y => min x0 x1 ≤ x ∧ x ≤ max x0 x1 ∧ min y0 y1 ≤ y ∧ y ≤ max y0 y1 ∧
            (x = min x0 x1 ∨ x = max x0 x1 ∨ y = min y0 y1 ∨ y = max y0 y1))

/-- R89 with R87: an unconfigured core answers NOT_CONFIGURED (code 3); on a configured core RECTFILL paints exactly
the half-open box. -/
def Obligations.RectfillPaintsHalfOpenBox : Prop :=
  ∀ (s : State) (x0 y0 x1 y1 col : Int), DimensionsOk s →
    (configured s = false → exec (.rectfill x0 y0 x1 y1 col) s = .next { s with rsp := 3, rspValid := true, busy := false }) ∧
    (configured s = true → ∃ t, exec (.rectfill x0 y0 x1 y1 col) s = .next t ∧
        PaintsExactly s t (if 0 ≤ col ∧ col ≤ 15 then BitVec.ofInt 4 col else s.curColor)
          fun x y => min x0 x1 ≤ x ∧ x < max x0 x1 ∧ min y0 y1 ≤ y ∧ y < max y0 y1)

/-- R89: clipping the loops of RECTFILL to the screen gives the same end state as the unclipped loops, in every
configured state. -/
def Obligations.RectfillClippingIsInvisible : Prop :=
  ∀ (s : State) (x0 y0 x1 y1 col : Int), configured s = true →
    exec (.rectfill x0 y0 x1 y1 col) s =
      drawPoints col (boxPoints (min x0 x1) (min y0 y1) (max x0 x1) (max y0 y1)) s

/-- R94 (which the spec derives): on a configured core the end state of a sequence of plots in one color depends only
on the set of on-screen pixels plotted, not on their order or repetition, and no such sequence fails. -/
def Obligations.EndStateDependsOnlyOnPixelSet : Prop :=
  ∀ (s : State) (col : Int) (ps qs : List Point), DimensionsOk s → configured s = true →
    Memory.wf Config.ramInit Config.ramSize s.ram →
    (∀ p : Point, onScreen s p.x p.y = true → (p ∈ ps ↔ p ∈ qs)) →
    drawPoints col ps s = drawPoints col qs s ∧
      ∃ t, drawPoints col ps s = .next t ∧ t.rsp = 0

/-- R90: `circle_steps` is empty for a negative radius; otherwise it starts at `(r, 0)`, its k-th offset has `y = k`,
every offset has `x >= y >= 0` and `x <= r`, and `x` falls by at most one a step. The decision variable at the offset
`(x, y)` is R90's `err` in closed form, `x * (x - 1) + (y + 1) ^ 2 - r ^ 2` (1 - r at the start): the next offset, if
`x >= y` still holds there, is `(x, y + 1)` when it is negative and `(x - 1, y + 1)` when it is not. -/
def Obligations.CircleStepsWalkTheOctant : Prop :=
  (∀ r : Int, r < 0 → circleSteps r = []) ∧
  (∀ r : Int, 0 ≤ r → (circleSteps r)[0]? = some ⟨r, 0⟩ ∧
    (∀ (k : Nat) (o : Point), (circleSteps r)[k]? = some o → o.y = (k : Int) ∧ o.y ≤ o.x ∧ o.x ≤ r) ∧
    (∀ (k : Nat) (o q : Point), (circleSteps r)[k]? = some o → (circleSteps r)[k + 1]? = some q →
      q.x = o.x ∨ q.x = o.x - 1) ∧
    (∀ (k : Nat) (o : Point), (circleSteps r)[k]? = some o →
      let err := o.x * (o.x - 1) + (o.y + 1) ^ 2 - r ^ 2
      let x := if err < 0 then o.x else o.x - 1
      (circleSteps r)[k + 1]? = if o.y + 1 ≤ x then some ⟨x, o.y + 1⟩ else none))

/-- R90, R95: the circle loop ends by its own test: any larger bound on its steps gives the same list, which has at
most `r + 1` offsets. -/
def Obligations.CircleLoopEndsByItself : Prop :=
  ∀ (r : Int) (n : Nat), r + 1 ≤ n → circleFrom n r 0 (1 - r) = circleSteps r ∧
    (0 ≤ r → ((circleSteps r).length : Int) ≤ r + 1)

/-- R91: an unconfigured core answers NOT_CONFIGURED (code 3); on a configured core CIRC paints exactly the eight
octant points of every step. -/
def Obligations.CircPaintsOctantPoints : Prop :=
  ∀ (s : State) (cx cy r col : Int), DimensionsOk s →
    (configured s = false → exec (.circ cx cy r col) s = .next { s with rsp := 3, rspValid := true, busy := false }) ∧
    (configured s = true → ∃ t, exec (.circ cx cy r col) s = .next t ∧
        PaintsExactly s t (if 0 ≤ col ∧ col ≤ 15 then BitVec.ofInt 4 col else s.curColor)
          fun x y => ∃ o ∈ circleSteps r,
            (|x - cx| = o.x ∧ |y - cy| = o.y) ∨ (|x - cx| = o.y ∧ |y - cy| = o.x))

/-- R92 with R83: an unconfigured core answers NOT_CONFIGURED (code 3); on a configured core CIRCFILL paints exactly
the four horizontal spans of every step, under either LINE_TIE. -/
def Obligations.CircfillPaintsSpans : Prop :=
  ∀ (s : State) (cx cy r col : Int), DimensionsOk s →
    (configured s = false → exec (.circfill cx cy r col) s = .next { s with rsp := 3, rspValid := true, busy := false }) ∧
    (configured s = true → ∃ t, exec (.circfill cx cy r col) s = .next t ∧
        PaintsExactly s t (if 0 ≤ col ∧ col ≤ 15 then BitVec.ofInt 4 col else s.curColor)
          fun x y => ∃ o ∈ circleSteps r,
            (|x - cx| ≤ o.x ∧ |y - cy| = o.y) ∨ (|x - cx| ≤ o.y ∧ |y - cy| = o.x))

/-- R93 (which the spec derives): the outline's offsets are closed under the reflections in both axes and in the
diagonal. -/
def Obligations.CircleOffsetsAreSymmetric : Prop :=
  ∀ (r u v : Int), (⟨u, v⟩ : Point) ∈ circPoints 0 0 r →
    (⟨-u, v⟩ : Point) ∈ circPoints 0 0 r ∧ (⟨u, -v⟩ : Point) ∈ circPoints 0 0 r ∧ (⟨v, u⟩ : Point) ∈ circPoints 0 0 r

/-- R92: the filled disk holds the outline, every row of it is one unbroken run, and its rows are contiguous from `cy
- r` to `cy + r`. -/
def Obligations.DiskIsSolid : Prop :=
  ∀ (tie : LineTie) (cx cy r : Int),
    (∀ p ∈ circPoints cx cy r, p ∈ circfillPoints tie cx cy r) ∧
    (∀ x z y w : Int, (⟨x, y⟩ : Point) ∈ circfillPoints tie cx cy r → (⟨z, y⟩ : Point) ∈ circfillPoints tie cx cy r →
      x ≤ w → w ≤ z → (⟨w, y⟩ : Point) ∈ circfillPoints tie cx cy r) ∧
    (∀ y : Int, (∃ x, (⟨x, y⟩ : Point) ∈ circfillPoints tie cx cy r) ↔ 0 ≤ r ∧ cy - r ≤ y ∧ y ≤ cy + r)

/-! ## Color, palette, configuration (42_color_palette.md, 43_config.md) -/

/-- R97: COLOR with an index 0 to 15 sets CUR_COLOR and nothing else and answers OK, configured or not; any other
index ends with INVALID_COLOR_INDEX (code 2) and changes nothing. -/
def Obligations.ColorSetsCurrentColor : Prop :=
  ∀ (s : State) (idx : Int),
    (0 ≤ idx ∧ idx ≤ 15 → ∃ c : Nibble, (c.toNat : Int) = idx ∧
      exec (.color idx) s = .next { s with curColor := c, rsp := 0, rspValid := true, busy := false }) ∧
    (idx < 0 ∨ 15 < idx → exec (.color idx) s = .next { s with rsp := 2, rspValid := true, busy := false })

/-- R98: PAL with an index 0 to 15 answers OK with R, G, B packed in DATA, writes no state, and gives black for entry
0 and the table's entry for the others; any other index ends with OUT_OF_RANGE (code 1). -/
def Obligations.PalReadsPaletteEntry : Prop :=
  ∀ (s : State) (idx : Int),
    (idx = 0 → exec (.pal idx) s = .next { s with rsp := 0, rspValid := true, busy := false }) ∧
    (∀ k : Fin 15, idx = (k.val : Int) + 1 → ∃ r : RspWord,
      exec (.pal idx) s = .next { s with rsp := r, rspValid := true, busy := false } ∧
      rspStatus r = 0 ∧ rspNib r = 0 ∧ rspZero r = 0 ∧
      (rspData r).toNat = s.palette[k].r.toNat * 65536 + s.palette[k].g.toNat * 256 + s.palette[k].b.toNat) ∧
    (idx < 0 ∨ 15 < idx → exec (.pal idx) s = .next { s with rsp := 1, rspValid := true, busy := false })

/-- R100 (which the spec derives): a PGET that succeeds returns 0 to 15, and PAL of that value always succeeds. -/
def Obligations.PalOfPgetAlwaysSucceeds : Prop :=
  ∀ (s t : State) (x y : Int), exec (.pget x y) s = .next t → rspStatus t.rsp = 0 →
    (rspData t.rsp).toNat ≤ 15 ∧
    ∀ u : State, ∃ v, exec (.pal (rspData t.rsp).toNat) u = .next v ∧ rspStatus v.rsp = 0

/-- R102 with R101 and R103: CFG takes each given dimension that is unset; a resulting pair of more than 16384 pixels
ends with OUT_OF_RANGE (code 1) and sets neither; otherwise it answers OK and nothing else changes. -/
def Obligations.CfgSetsEachDimensionOnce : Prop :=
  ∀ (s : State) (wv hv : Bool) (w h : Nat), w ≤ 65535 → h ≤ 65535 →
    let bothSet := (s.wSet = true ∨ wv = true) ∧ (s.hSet = true ∨ hv = true)
    let nw := if s.wSet = true then s.w.toNat else w
    let nh := if s.hSet = true then s.h.toNat else h
    (bothSet ∧ 16384 < nw * nh →
      exec (.cfg wv hv w h) s = .next { s with rsp := 1, rspValid := true, busy := false }) ∧
    (¬ (bothSet ∧ 16384 < nw * nh) →
      ∃ t, exec (.cfg wv hv w h) s = .next t ∧
        t = { s with w := t.w, wSet := t.wSet, h := t.h, hSet := t.hSet, rsp := 0, rspValid := true, busy := false } ∧
        (s.wSet = false ∧ wv = true → t.w.toNat = w ∧ t.wSet = true) ∧
        (¬ (s.wSet = false ∧ wv = true) → t.w = s.w ∧ t.wSet = s.wSet) ∧
        (s.hSet = false ∧ hv = true → t.h.toNat = h ∧ t.hSet = true) ∧
        (¬ (s.hSet = false ∧ hv = true) → t.h = s.h ∧ t.hSet = s.hSet))

/-! ## Rules of the whole machine -/

/-- R40, R103, R137: under the product bound no command changes a byte of RAM outside the screen region, and only
PSET, CLS, LINE, RECT, RECTFILL, CIRC and CIRCFILL change RAM at all. -/
def Obligations.CommandsWriteOnlyTheScreen : Prop :=
  ∀ (s t : State) (i : Instr), DimensionsOk s → exec i s = .next t →
    (∀ a : Nat, a < 0x6000 ∨ 0x8000 ≤ a → ramByte t a = ramByte s a) ∧
    (i.opcode ∈ [Opcode.cfg, .xlate, .pget, .color, .pal] → t.ram = s.ram)

/-- R20, R26, R30: only COLOR writes CUR_COLOR and only CFG writes the dimensions; no command writes the palette, the
parameter LINE_TIE or ROM, or the model's own fields for the host, `input` and `answer` (log entries 1 and 7). -/
def Obligations.RegistersAreWrittenOnlyByTheirCommand : Prop :=
  ∀ (s t : State) (i : Instr), exec i s = .next t →
    (i.opcode ≠ .color → t.curColor = s.curColor) ∧
    (i.opcode ≠ .cfg → t.w = s.w ∧ t.wSet = s.wSet ∧ t.h = s.h ∧ t.hSet = s.hSet) ∧
    t.palette = s.palette ∧ t.lineTie = s.lineTie ∧ t.rom = s.rom ∧ t.input = s.input ∧ t.answer = s.answer

/-- R26: no command reads or writes ROM: with another ROM every command does the same and leaves that ROM. -/
def Obligations.CommandsNeitherReadNorWriteRom : Prop :=
  ∀ (s t : State) (cmd : CmdWord) (rom : Memory), runCommand cmd s = .next t →
    t.rom = s.rom ∧ runCommand cmd { s with rom := rom } = .next { t with rom := rom }

/-- R96, R135: a drawing command uses the current color only for a color operand outside 0 to 15: with an operand in
range its effect does not depend on CUR_COLOR. -/
def Obligations.ValidColorIgnoresCurrentColor : Prop :=
  ∀ (s t : State) (c : Nibble) (x0 y0 x1 y1 col : Int), 0 ≤ col → col ≤ 15 →
    ∀ i ∈ [Instr.pset x0 y0 col, .line x0 y0 x1 y1 col, .rect x0 y0 x1 y1 col, .rectfill x0 y0 x1 y1 col,
        .circ x0 y0 x1 col, .circfill x0 y0 x1 col],
      exec i s = .next t → exec i { s with curColor := c } = .next { t with curColor := c }

/-! ## The host (20_memory.md section 4, 60_exceptions.md section 4) -/

/-- Section 4: truncation toward zero never passes the argument, stays within one of it, and leaves integers alone. -/
def Obligations.TruncationIsTowardZero : Prop :=
  ∀ q : Rat, (0 ≤ q → (0 : Rat) ≤ (truncZero q : Rat) ∧ (truncZero q : Rat) ≤ q ∧ q < (truncZero q : Rat) + 1) ∧
    (q ≤ 0 → (truncZero q : Rat) ≤ 0 ∧ q ≤ (truncZero q : Rat) ∧ (truncZero q : Rat) - 1 < q)

/-- R45: host read of an in-range truncated address answers that RAM byte, of any other answers OUT_OF_RANGE; neither
changes anything but the host's own fields. -/
def Obligations.HostReadAnswersRamByte : Prop :=
  ∀ (s : State) (addr : Rat) (rest : List HostAction), s.busy = false → s.input = .read addr :: rest →
    let a := truncZero addr
    (0 ≤ a ∧ a < 32768 → step s = .next { s with input := rest, answer := some (.byte (ramByte s a.toNat)) }) ∧
    (¬ (0 ≤ a ∧ a < 32768) → step s = .next { s with input := rest, answer := some .outOfRange })

/-- R46: host write of a value in [0, 256) at an in-range truncated address sets that byte of RAM and no other, to the
value where it is an integer; any other write answers OUT_OF_RANGE and changes nothing. (The byte that a fractional
value stores is the model's free value, log entry 8.) -/
def Obligations.HostWriteSetsOneByte : Prop :=
  ∀ (s : State) (addr val : Rat) (rest : List HostAction), s.busy = false → s.input = .write addr val :: rest →
    let a := truncZero addr
    (0 ≤ a ∧ a < 32768 ∧ 0 ≤ val ∧ val < 256 → ∃ (t : State) (v : Byte), step s = .next t ∧
      t = { s with ram := t.ram, input := rest, answer := some .done } ∧
      (val.den = 1 → (v.toNat : Rat) = val) ∧
      ∀ b : Nat, ramByte t b = if (b : Int) = a then v else ramByte s b) ∧
    (¬ (0 ≤ a ∧ a < 32768 ∧ 0 ≤ val ∧ val < 256) →
      step s = .next { s with input := rest, answer := some .outOfRange })

/-- R47: host copy moves `len` bytes as if through a temporary buffer when both ranges lie in RAM, does nothing for an
empty range, and otherwise answers OUT_OF_RANGE and changes nothing. -/
def Obligations.HostCopyIsThroughABuffer : Prop :=
  ∀ (s : State) (dest src len : Rat) (rest : List HostAction), s.busy = false → s.input = .copy dest src len :: rest →
    let d := truncZero dest
    let c := truncZero src
    let n := truncZero len
    let fails := n < 0 ∨ (0 < n ∧ ¬ (0 ≤ c ∧ c + n - 1 < 32768 ∧ 0 ≤ d ∧ d + n - 1 < 32768))
    (fails → step s = .next { s with input := rest, answer := some .outOfRange }) ∧
    (¬ fails → ∃ t, step s = .next t ∧
      t = { s with ram := t.ram, input := rest, answer := some .done } ∧
      ∀ b : Nat, ramByte t b = if d ≤ b ∧ (b : Int) < d + n then ramByte s (c + (b - d)).toNat else ramByte s b)

/-- R48: host restore copies `len` ROM bytes to RAM when the source lies in ROM and the destination in RAM; an empty
range does nothing, and any other case answers OUT_OF_RANGE and changes nothing. -/
def Obligations.HostRestoreCopiesRomToRam : Prop :=
  ∀ (s : State) (dest src len : Rat) (rest : List HostAction), s.busy = false →
    s.input = .restore dest src len :: rest →
    let d := truncZero dest
    let c := truncZero src
    let n := truncZero len
    let fails := n < 0 ∨ (0 < n ∧ ¬ (0 ≤ c ∧ c + n - 1 < 17152 ∧ 0 ≤ d ∧ d + n - 1 < 32768))
    (fails → step s = .next { s with input := rest, answer := some .outOfRange }) ∧
    (¬ fails → ∃ t, step s = .next t ∧
      t = { s with ram := t.ram, input := rest, answer := some .done } ∧
      ∀ b : Nat, ramByte t b = if d ≤ b ∧ (b : Int) < d + n then romByte s (c + (b - d)).toNat else ramByte s b)

/-- R49: host store copies `len` RAM bytes to ROM when the source lies in RAM and the destination in ROM; with every
argument omitted it copies the whole ROM-sized window from 0; any other case answers OUT_OF_RANGE and changes nothing. -/
def Obligations.HostStoreCopiesRamToRom : Prop :=
  (∀ (s : State) (dest src len : Rat) (rest : List HostAction), s.busy = false →
    s.input = .store dest src len :: rest →
    let d := truncZero dest
    let c := truncZero src
    let n := truncZero len
    let fails := n < 0 ∨ (0 < n ∧ ¬ (0 ≤ c ∧ c + n - 1 < 32768 ∧ 0 ≤ d ∧ d + n - 1 < 17152))
    (fails → step s = .next { s with input := rest, answer := some .outOfRange }) ∧
    (¬ fails → ∃ t, step s = .next t ∧
      t = { s with rom := t.rom, input := rest, answer := some .done } ∧
      ∀ b : Nat, romByte t b = if d ≤ b ∧ (b : Int) < d + n then ramByte s (c + (b - d)).toNat else romByte s b)) ∧
  (∀ (s : State) (rest : List HostAction), s.busy = false → s.input = .storeDefault :: rest →
    ∃ t, step s = .next t ∧ t = { s with rom := t.rom, input := rest, answer := some .done } ∧
      ∀ b : Nat, romByte t b = if b < 17152 then ramByte s b else romByte s b)

/-- R50 with R39: host fill sets every byte of a range inside RAM to a value in [0, 256) (the value itself where it is
an integer), does nothing for an empty range, and otherwise answers OUT_OF_RANGE and changes nothing. (The byte that a
fractional value stores is the model's free value, log entry 8.) -/
def Obligations.HostFillSetsRange : Prop :=
  ∀ (s : State) (dest val len : Rat) (rest : List HostAction), s.busy = false → s.input = .fill dest val len :: rest →
    let d := truncZero dest
    let n := truncZero len
    let fails := n < 0 ∨ (0 < n ∧ (d < 0 ∨ 32768 ≤ d + n - 1)) ∨ val < 0 ∨ 256 ≤ val
    (fails → step s = .next { s with input := rest, answer := some .outOfRange }) ∧
    (¬ fails → ∃ (t : State) (v : Byte), step s = .next t ∧
      t = { s with ram := t.ram, input := rest, answer := some .done } ∧
      (val.den = 1 → (v.toNat : Rat) = val) ∧
      ∀ b : Nat, ramByte t b = if d ≤ b ∧ (b : Int) < d + n then v else ramByte s b)

/-- U7, U15 (R132, R133): while BUSY = 1 a command word, abandoned later or not, is not taken and a memory access has
no meaning, each refused by its own name (log entry 11). R32, R124: whatever BUSY holds, a poll answers the interface
and changes nothing of the core (where the answer is held is log entry 7). -/
def Obligations.BusyCoreTakesNoCommandAndNoAccess : Prop :=
  (∀ (s : State) (a : HostAction) (rest : List HostAction), s.busy = true → s.input = a :: rest →
    (∀ cmd, a = .command cmd → step s = .refused .commandWhileBusy) ∧
    (∀ cmd k, a = .resetDuring cmd k → step s = .refused .commandWhileBusy) ∧
    (∀ addr, a = .read addr → step s = .refused .hostAccessWhileBusy) ∧
    (∀ addr v, a = .write addr v → step s = .refused .hostAccessWhileBusy) ∧
    (∀ d c n, a = .copy d c n ∨ a = .restore d c n ∨ a = .store d c n → step s = .refused .hostAccessWhileBusy) ∧
    (a = .storeDefault → step s = .refused .hostAccessWhileBusy) ∧
    (∀ d v n, a = .fill d v n → step s = .refused .hostAccessWhileBusy)) ∧
  (∀ (s : State) (rest : List HostAction), s.input = .poll :: rest →
    step s = .next { s with input := rest, answer := some (.interface s.busy s.rspValid s.rsp) })

/-- While BUSY = 0 a step goes on and ends with BUSY = 0: the machine has no fault, and no refusal of an idle core
(log entry 11). R123: with no action of the host the idle core keeps all its state. -/
def Obligations.IdleMachineAlwaysSteps : Prop :=
  (∀ s : State, s.busy = false → ∃ t, step s = .next t ∧ t.busy = false) ∧
  ∀ s : State, s.input = [] → s.busy = false → step s = .next s

/-- R125: the bridge's buffer has three bytes for each pixel, and at three times an on-screen pixel's index stand the
R, G and B that PAL gives for the color that PGET gives. -/
def Obligations.BridgeShowsPalOfPget : Prop :=
  ∀ s : State, DimensionsOk s → configured s = true →
    (expandRgb s).length = s.w.toNat * s.h.toNat * 3 ∧
    ∀ x y, onScreen s x y = true → ∃ g v : State, exec (.pget x y) s = .next g ∧
      exec (.pal (rspData g.rsp).toNat) s = .next v ∧ rspStatus g.rsp = 0 ∧ rspStatus v.rsp = 0 ∧
      let o := (pixelIndex s x y).toNat * 3
      (expandRgb s)[o]? = some ((rspData v.rsp).extractLsb' 16 8) ∧
      (expandRgb s)[o + 1]? = some ((rspData v.rsp).extractLsb' 8 8) ∧
      (expandRgb s)[o + 2]? = some ((rspData v.rsp).extractLsb' 0 8)
end

