-- ==== Sys2Proof/Laws/Encoding.lean ====
section
/-! SUPPORT. The encoder's word field by field (30_encoding.md R57), and the operands' fields read back (R58). -/

namespace Sys2Proof

theorem getLsbD_assembleWord (op flg : Byte) (a b c d e : Field) (i : Nat) :
    (assembleWord op flg a b c d e).getLsbD i =
      if i < 8 then op.getLsbD i
      else if i < 16 then flg.getLsbD (i - 8)
      else if i < 32 then a.getLsbD (i - 16)
      else if i < 48 then b.getLsbD (i - 32)
      else if i < 64 then c.getLsbD (i - 48)
      else if i < 80 then d.getLsbD (i - 64)
      else e.getLsbD (i - 80) := by
  have h : (assembleWord op flg a b c d e).getLsbD i =
      ((((((e ++ d) ++ c) ++ b) ++ a) ++ flg) ++ op).getLsbD i := rfl
  simp only [h, BitVec.getLsbD_append]
  by_cases h1 : i < 8
  · simp [h1]
  · by_cases h2 : i < 16
    · simp [h1, h2, show i - 8 < 8 by omega]
    · by_cases h3 : i < 32
      · simp [h1, h2, h3, show ¬ i - 8 < 8 by omega, show i - 16 < 16 by omega, show i - 8 - 8 = i - 16 by omega]
      · by_cases h4 : i < 48
        · simp [h1, h2, h3, h4, show ¬ i - 8 < 8 by omega, show ¬ i - 8 - 8 < 16 by omega,
            show i - 32 < 16 by omega, show i - 8 - 8 - 16 = i - 32 by omega]
        · by_cases h5 : i < 64
          · simp [h1, h2, h3, h4, h5, show ¬ i - 8 < 8 by omega, show ¬ i - 8 - 8 < 16 by omega,
              show ¬ i - 8 - 8 - 16 < 16 by omega, show i - 48 < 16 by omega,
              show i - 8 - 8 - 16 - 16 = i - 48 by omega]
          · by_cases h6 : i < 80
            · simp [h1, h2, h3, h4, h5, h6, show ¬ i - 8 < 8 by omega, show ¬ i - 8 - 8 < 16 by omega,
                show ¬ i - 8 - 8 - 16 < 16 by omega, show ¬ i - 8 - 8 - 16 - 16 < 16 by omega,
                show i - 64 < 16 by omega, show i - 8 - 8 - 16 - 16 - 16 = i - 64 by omega]
            · simp [h1, h2, h3, h4, h5, h6, show ¬ i - 8 < 8 by omega, show ¬ i - 8 - 8 < 16 by omega,
                show ¬ i - 8 - 8 - 16 < 16 by omega, show ¬ i - 8 - 8 - 16 - 16 < 16 by omega,
                show ¬ i - 8 - 8 - 16 - 16 - 16 < 16 by omega, show i - 8 - 8 - 16 - 16 - 16 - 16 = i - 80 by omega]

section
variable (op flg : Byte) (a b c d e : Field)

@[simp] theorem opField_assembleWord : opField (assembleWord op flg a b c d e) = op := by
  ext i hi
  simp [opField, getLsbD_assembleWord, hi]

@[simp] theorem flgField_assembleWord : flgField (assembleWord op flg a b c d e) = flg := by
  ext i hi
  simp [flgField, getLsbD_assembleWord, show 8 + i < 16 by omega, BitVec.getLsbD_eq_getElem hi]

@[simp] theorem aField_assembleWord : aField (assembleWord op flg a b c d e) = a := by
  ext i hi
  simp [aField, getLsbD_assembleWord, show ¬ 16 + i < 8 by omega, show ¬ 16 + i < 16 by omega,
    show 16 + i < 32 by omega, BitVec.getLsbD_eq_getElem hi]

@[simp] theorem bField_assembleWord : bField (assembleWord op flg a b c d e) = b := by
  ext i hi
  simp [bField, getLsbD_assembleWord, show ¬ 32 + i < 8 by omega, show ¬ 32 + i < 16 by omega,
    show ¬ 32 + i < 32 by omega, show 32 + i < 48 by omega, BitVec.getLsbD_eq_getElem hi]

@[simp] theorem cField_assembleWord : cField (assembleWord op flg a b c d e) = c := by
  ext i hi
  simp [cField, getLsbD_assembleWord, show ¬ 48 + i < 8 by omega, show ¬ 48 + i < 16 by omega,
    show ¬ 48 + i < 32 by omega, show ¬ 48 + i < 48 by omega, show 48 + i < 64 by omega, BitVec.getLsbD_eq_getElem hi]

@[simp] theorem dField_assembleWord : dField (assembleWord op flg a b c d e) = d := by
  ext i hi
  simp [dField, getLsbD_assembleWord, show ¬ 64 + i < 8 by omega, show ¬ 64 + i < 16 by omega,
    show ¬ 64 + i < 32 by omega, show ¬ 64 + i < 48 by omega, show ¬ 64 + i < 64 by omega, show 64 + i < 80 by omega,
    BitVec.getLsbD_eq_getElem hi]

@[simp] theorem eField_assembleWord : eField (assembleWord op flg a b c d e) = e := by
  ext i hi
  simp [eField, getLsbD_assembleWord, show ¬ 80 + i < 8 by omega, show ¬ 80 + i < 16 by omega,
    show ¬ 80 + i < 32 by omega, show ¬ 80 + i < 48 by omega, show ¬ 80 + i < 64 by omega, show ¬ 80 + i < 80 by omega,
    BitVec.getLsbD_eq_getElem hi]

end

/-- A signed operand in range survives its field. -/
theorem sext16_sField {v : Int} (h : isS16 v = true) : sext16 (sField v) = v := by
  simp only [isS16, decide_eq_true_eq] at h
  simp only [sext16, sField, BitVec.toNat_ofInt]
  split <;> omega

/-- An unsigned operand in range survives its field. -/
theorem zext16_uField {v : Nat} (h : isU16 v = true) : zext16 (uField v) = v := by
  simp only [isU16, decide_eq_true_eq] at h
  simp only [zext16, uField, BitVec.toNat_ofNat]
  omega

/-- Every opcode number stands for its opcode. -/
@[simp] theorem opcodeOf_opcodeNumber (o : Opcode) : opcodeOf (opcodeNumber o) = some o := by cases o <;> rfl

@[simp] theorem cfgFlags_wv (wv hv : Bool) : (cfgFlags wv hv)[0] = wv := by cases wv <;> cases hv <;> rfl

@[simp] theorem cfgFlags_hv (wv hv : Bool) : (cfgFlags wv hv)[1] = hv := by cases wv <;> cases hv <;> rfl

@[simp] theorem cfgFlags_reserved (wv hv : Bool) : cfgFlags wv hv &&& reservedFlags .cfg = 0 := by
  cases wv <;> cases hv <;> rfl

end Sys2Proof
end

