-- ==== Sys2Proof/Laws/State.lean ====
section
/-! SUPPORT. One lemma per field of State for each of its named updates (accept, endCommand, setRam, setRom,
coreReset), so that no later proof unfolds a record update; and the same for the functions that read only some fields. -/

namespace Sys2Proof.Machine

/-! ## accept -/

@[simp] theorem accept_curColor (s : State) : s.accept.curColor = s.curColor := rfl
@[simp] theorem accept_w (s : State) : s.accept.w = s.w := rfl
@[simp] theorem accept_wSet (s : State) : s.accept.wSet = s.wSet := rfl
@[simp] theorem accept_h (s : State) : s.accept.h = s.h := rfl
@[simp] theorem accept_hSet (s : State) : s.accept.hSet = s.hSet := rfl
@[simp] theorem accept_palette (s : State) : s.accept.palette = s.palette := rfl
@[simp] theorem accept_lineTie (s : State) : s.accept.lineTie = s.lineTie := rfl
@[simp] theorem accept_ram (s : State) : s.accept.ram = s.ram := rfl
@[simp] theorem accept_rom (s : State) : s.accept.rom = s.rom := rfl
@[simp] theorem accept_busy (s : State) : s.accept.busy = true := rfl
@[simp] theorem accept_rsp (s : State) : s.accept.rsp = s.rsp := rfl
@[simp] theorem accept_rspValid (s : State) : s.accept.rspValid = false := rfl
@[simp] theorem accept_input (s : State) : s.accept.input = s.input := rfl
@[simp] theorem accept_answer (s : State) : s.accept.answer = s.answer := rfl

/-! ## endCommand -/

@[simp] theorem endCommand_curColor (s : State) (r : RspWord) : (s.endCommand r).curColor = s.curColor := rfl
@[simp] theorem endCommand_w (s : State) (r : RspWord) : (s.endCommand r).w = s.w := rfl
@[simp] theorem endCommand_wSet (s : State) (r : RspWord) : (s.endCommand r).wSet = s.wSet := rfl
@[simp] theorem endCommand_h (s : State) (r : RspWord) : (s.endCommand r).h = s.h := rfl
@[simp] theorem endCommand_hSet (s : State) (r : RspWord) : (s.endCommand r).hSet = s.hSet := rfl
@[simp] theorem endCommand_palette (s : State) (r : RspWord) : (s.endCommand r).palette = s.palette := rfl
@[simp] theorem endCommand_lineTie (s : State) (r : RspWord) : (s.endCommand r).lineTie = s.lineTie := rfl
@[simp] theorem endCommand_ram (s : State) (r : RspWord) : (s.endCommand r).ram = s.ram := rfl
@[simp] theorem endCommand_rom (s : State) (r : RspWord) : (s.endCommand r).rom = s.rom := rfl
@[simp] theorem endCommand_busy (s : State) (r : RspWord) : (s.endCommand r).busy = false := rfl
@[simp] theorem endCommand_rsp (s : State) (r : RspWord) : (s.endCommand r).rsp = r := rfl
@[simp] theorem endCommand_rspValid (s : State) (r : RspWord) : (s.endCommand r).rspValid = true := rfl
@[simp] theorem endCommand_input (s : State) (r : RspWord) : (s.endCommand r).input = s.input := rfl
@[simp] theorem endCommand_answer (s : State) (r : RspWord) : (s.endCommand r).answer = s.answer := rfl

/-! ## setRam -/

@[simp] theorem setRam_curColor (s : State) (a : Nat) (bs : List Byte) : (s.setRam a bs).curColor = s.curColor := rfl
@[simp] theorem setRam_w (s : State) (a : Nat) (bs : List Byte) : (s.setRam a bs).w = s.w := rfl
@[simp] theorem setRam_wSet (s : State) (a : Nat) (bs : List Byte) : (s.setRam a bs).wSet = s.wSet := rfl
@[simp] theorem setRam_h (s : State) (a : Nat) (bs : List Byte) : (s.setRam a bs).h = s.h := rfl
@[simp] theorem setRam_hSet (s : State) (a : Nat) (bs : List Byte) : (s.setRam a bs).hSet = s.hSet := rfl
@[simp] theorem setRam_palette (s : State) (a : Nat) (bs : List Byte) : (s.setRam a bs).palette = s.palette := rfl
@[simp] theorem setRam_lineTie (s : State) (a : Nat) (bs : List Byte) : (s.setRam a bs).lineTie = s.lineTie := rfl
@[simp] theorem setRam_ram (s : State) (a : Nat) (bs : List Byte) : (s.setRam a bs).ram = Memory.splice Config.ramInit s.ram a bs := rfl
@[simp] theorem setRam_rom (s : State) (a : Nat) (bs : List Byte) : (s.setRam a bs).rom = s.rom := rfl
@[simp] theorem setRam_busy (s : State) (a : Nat) (bs : List Byte) : (s.setRam a bs).busy = s.busy := rfl
@[simp] theorem setRam_rsp (s : State) (a : Nat) (bs : List Byte) : (s.setRam a bs).rsp = s.rsp := rfl
@[simp] theorem setRam_rspValid (s : State) (a : Nat) (bs : List Byte) : (s.setRam a bs).rspValid = s.rspValid := rfl
@[simp] theorem setRam_input (s : State) (a : Nat) (bs : List Byte) : (s.setRam a bs).input = s.input := rfl
@[simp] theorem setRam_answer (s : State) (a : Nat) (bs : List Byte) : (s.setRam a bs).answer = s.answer := rfl

/-! ## setRom -/

@[simp] theorem setRom_curColor (s : State) (a : Nat) (bs : List Byte) : (s.setRom a bs).curColor = s.curColor := rfl
@[simp] theorem setRom_w (s : State) (a : Nat) (bs : List Byte) : (s.setRom a bs).w = s.w := rfl
@[simp] theorem setRom_wSet (s : State) (a : Nat) (bs : List Byte) : (s.setRom a bs).wSet = s.wSet := rfl
@[simp] theorem setRom_h (s : State) (a : Nat) (bs : List Byte) : (s.setRom a bs).h = s.h := rfl
@[simp] theorem setRom_hSet (s : State) (a : Nat) (bs : List Byte) : (s.setRom a bs).hSet = s.hSet := rfl
@[simp] theorem setRom_palette (s : State) (a : Nat) (bs : List Byte) : (s.setRom a bs).palette = s.palette := rfl
@[simp] theorem setRom_lineTie (s : State) (a : Nat) (bs : List Byte) : (s.setRom a bs).lineTie = s.lineTie := rfl
@[simp] theorem setRom_ram (s : State) (a : Nat) (bs : List Byte) : (s.setRom a bs).ram = s.ram := rfl
@[simp] theorem setRom_rom (s : State) (a : Nat) (bs : List Byte) : (s.setRom a bs).rom = Memory.splice Config.romInit s.rom a bs := rfl
@[simp] theorem setRom_busy (s : State) (a : Nat) (bs : List Byte) : (s.setRom a bs).busy = s.busy := rfl
@[simp] theorem setRom_rsp (s : State) (a : Nat) (bs : List Byte) : (s.setRom a bs).rsp = s.rsp := rfl
@[simp] theorem setRom_rspValid (s : State) (a : Nat) (bs : List Byte) : (s.setRom a bs).rspValid = s.rspValid := rfl
@[simp] theorem setRom_input (s : State) (a : Nat) (bs : List Byte) : (s.setRom a bs).input = s.input := rfl
@[simp] theorem setRom_answer (s : State) (a : Nat) (bs : List Byte) : (s.setRom a bs).answer = s.answer := rfl

/-! ## coreReset -/

@[simp] theorem coreReset_curColor (s : State) : s.coreReset.curColor = 0 := rfl
@[simp] theorem coreReset_w (s : State) : s.coreReset.w = 0 := rfl
@[simp] theorem coreReset_wSet (s : State) : s.coreReset.wSet = false := rfl
@[simp] theorem coreReset_h (s : State) : s.coreReset.h = 0 := rfl
@[simp] theorem coreReset_hSet (s : State) : s.coreReset.hSet = false := rfl
@[simp] theorem coreReset_palette (s : State) : s.coreReset.palette = s.palette := rfl
@[simp] theorem coreReset_lineTie (s : State) : s.coreReset.lineTie = s.lineTie := rfl
@[simp] theorem coreReset_ram (s : State) : s.coreReset.ram = s.ram := rfl
@[simp] theorem coreReset_rom (s : State) : s.coreReset.rom = s.rom := rfl
@[simp] theorem coreReset_busy (s : State) : s.coreReset.busy = false := rfl
@[simp] theorem coreReset_rsp (s : State) : s.coreReset.rsp = 0 := rfl
@[simp] theorem coreReset_rspValid (s : State) : s.coreReset.rspValid = false := rfl
@[simp] theorem coreReset_input (s : State) : s.coreReset.input = s.input := rfl
@[simp] theorem coreReset_answer (s : State) : s.coreReset.answer = s.answer := rfl

/-! ## Functions that read only some fields -/

@[simp] theorem accept_width (s : State) : s.accept.width = s.width := rfl
@[simp] theorem accept_height (s : State) : s.accept.height = s.height := rfl
@[simp] theorem configured_accept (s : State) : configured s.accept = configured s := rfl
@[simp] theorem onScreen_accept (s : State) (x y : Int) : onScreen s.accept x y = onScreen s x y := rfl
@[simp] theorem pixelIndex_accept (s : State) (x y : Int) : pixelIndex s.accept x y = pixelIndex s x y := rfl
@[simp] theorem resolve_accept (s : State) (v : Int) : resolve s.accept v = resolve s v := rfl
@[simp] theorem paletteEntry_accept (s : State) (i : Nibble) : paletteEntry s.accept i = paletteEntry s i := rfl
@[simp] theorem ramByte_accept (s : State) (b : Nat) : ramByte s.accept b = ramByte s b := rfl
@[simp] theorem romByte_accept (s : State) (b : Nat) : romByte s.accept b = romByte s b := rfl
@[simp] theorem endCommand_width (s : State) (r : RspWord) : (s.endCommand r).width = s.width := rfl
@[simp] theorem endCommand_height (s : State) (r : RspWord) : (s.endCommand r).height = s.height := rfl
@[simp] theorem configured_endCommand (s : State) (r : RspWord) : configured (s.endCommand r) = configured s := rfl
@[simp] theorem onScreen_endCommand (s : State) (r : RspWord) (x y : Int) : onScreen (s.endCommand r) x y = onScreen s x y := rfl
@[simp] theorem pixelIndex_endCommand (s : State) (r : RspWord) (x y : Int) : pixelIndex (s.endCommand r) x y = pixelIndex s x y := rfl
@[simp] theorem resolve_endCommand (s : State) (r : RspWord) (v : Int) : resolve (s.endCommand r) v = resolve s v := rfl
@[simp] theorem paletteEntry_endCommand (s : State) (r : RspWord) (i : Nibble) : paletteEntry (s.endCommand r) i = paletteEntry s i := rfl
@[simp] theorem ramByte_endCommand (s : State) (r : RspWord) (b : Nat) : ramByte (s.endCommand r) b = ramByte s b := rfl
@[simp] theorem romByte_endCommand (s : State) (r : RspWord) (b : Nat) : romByte (s.endCommand r) b = romByte s b := rfl
@[simp] theorem setRam_width (s : State) (a : Nat) (bs : List Byte) : (s.setRam a bs).width = s.width := rfl
@[simp] theorem setRam_height (s : State) (a : Nat) (bs : List Byte) : (s.setRam a bs).height = s.height := rfl
@[simp] theorem configured_setRam (s : State) (a : Nat) (bs : List Byte) : configured (s.setRam a bs) = configured s := rfl
@[simp] theorem onScreen_setRam (s : State) (a : Nat) (bs : List Byte) (x y : Int) : onScreen (s.setRam a bs) x y = onScreen s x y := rfl
@[simp] theorem pixelIndex_setRam (s : State) (a : Nat) (bs : List Byte) (x y : Int) : pixelIndex (s.setRam a bs) x y = pixelIndex s x y := rfl
@[simp] theorem resolve_setRam (s : State) (a : Nat) (bs : List Byte) (v : Int) : resolve (s.setRam a bs) v = resolve s v := rfl
@[simp] theorem paletteEntry_setRam (s : State) (a : Nat) (bs : List Byte) (i : Nibble) : paletteEntry (s.setRam a bs) i = paletteEntry s i := rfl
@[simp] theorem romByte_setRam (s : State) (a : Nat) (bs : List Byte) (b : Nat) : romByte (s.setRam a bs) b = romByte s b := rfl
@[simp] theorem setRom_width (s : State) (a : Nat) (bs : List Byte) : (s.setRom a bs).width = s.width := rfl
@[simp] theorem setRom_height (s : State) (a : Nat) (bs : List Byte) : (s.setRom a bs).height = s.height := rfl
@[simp] theorem configured_setRom (s : State) (a : Nat) (bs : List Byte) : configured (s.setRom a bs) = configured s := rfl
@[simp] theorem onScreen_setRom (s : State) (a : Nat) (bs : List Byte) (x y : Int) : onScreen (s.setRom a bs) x y = onScreen s x y := rfl
@[simp] theorem pixelIndex_setRom (s : State) (a : Nat) (bs : List Byte) (x y : Int) : pixelIndex (s.setRom a bs) x y = pixelIndex s x y := rfl
@[simp] theorem resolve_setRom (s : State) (a : Nat) (bs : List Byte) (v : Int) : resolve (s.setRom a bs) v = resolve s v := rfl
@[simp] theorem paletteEntry_setRom (s : State) (a : Nat) (bs : List Byte) (i : Nibble) : paletteEntry (s.setRom a bs) i = paletteEntry s i := rfl
@[simp] theorem ramByte_setRom (s : State) (a : Nat) (bs : List Byte) (b : Nat) : ramByte (s.setRom a bs) b = ramByte s b := rfl
@[simp] theorem ramByte_coreReset (s : State) (b : Nat) : ramByte s.coreReset b = ramByte s b := rfl
@[simp] theorem romByte_coreReset (s : State) (b : Nat) : romByte s.coreReset b = romByte s b := rfl

end Sys2Proof.Machine
end

