-- ==== Sys2Proof/Laws/Memory.lean ====
section
/-! SUPPORT. The laws of a byte space: what a read after a write gives, that every write keeps the canonical form, and
that two canonical memories that read alike are equal. -/

namespace Sys2Proof.Machine

variable {init : Nat → Byte}

@[simp] theorem Memory.read_nil (a : Nat) : Memory.read init [] a = init a := rfl

/-- An address that no cell names reads as unlisted. -/
theorem Memory.read_absent {m : Memory} {a : Nat} (h : ∀ c ∈ m, c.1 ≠ a) : Memory.read init m a = init a := by
  induction m with
  | nil => rfl
  | cons c rest ih =>
    have hc : c.1 ≠ a := h c (by simp)
    simp only [Memory.read, hc, if_false]
    exact ih fun d hd => h d (by simp [hd])

theorem Memory.read_append_of_left_absent {m n : Memory} {a : Nat} (h : ∀ c ∈ m, c.1 ≠ a) :
    Memory.read init (m ++ n) a = Memory.read init n a := by
  induction m with
  | nil => rfl
  | cons c rest ih =>
    have hc : c.1 ≠ a := h c (by simp)
    simp only [List.cons_append, Memory.read, hc, if_false]
    exact ih fun d hd => h d (by simp [hd])

theorem Memory.read_append_of_right_absent {m n : Memory} {a : Nat} (h : ∀ c ∈ n, c.1 ≠ a) :
    Memory.read init (m ++ n) a = Memory.read init m a := by
  induction m with
  | nil => simpa using Memory.read_absent h
  | cons c rest ih =>
    simp only [List.cons_append, Memory.read]
    split
    · rfl
    · exact ih

/-- Keeping only the addresses of a class keeps what they read as. -/
theorem Memory.read_filter_of_keep (m : Memory) {p : Nat → Bool} {a : Nat} (h : p a = true) :
    Memory.read init (m.filter fun c => p c.1) a = Memory.read init m a := by
  induction m with
  | nil => rfl
  | cons c rest ih =>
    by_cases hc : c.1 = a
    · subst hc; simp [h, Memory.read]
    · by_cases hp : p c.1 <;> simp [hp, Memory.read, hc, ih]

theorem Memory.cellsFrom_fst {a : Nat} {bs : List Byte} :
    ∀ c ∈ Memory.cellsFrom init a bs, a ≤ c.1 ∧ c.1 < a + bs.length := by
  induction bs generalizing a with
  | nil => simp [Memory.cellsFrom]
  | cons b bs ih =>
    intro c hc
    simp only [Memory.cellsFrom] at hc
    have step : c ∈ Memory.cellsFrom init (a + 1) bs → a ≤ c.1 ∧ c.1 < a + (b :: bs).length := fun h => by
      have := ih c h
      simp only [List.length_cons]; omega
    split at hc
    · exact step hc
    · rcases List.mem_cons.1 hc with rfl | h
      · simp
      · exact step h

theorem Memory.read_cellsFrom (a b : Nat) (bs : List Byte) :
    Memory.read init (Memory.cellsFrom init a bs) b
      = if a ≤ b ∧ b < a + bs.length then bs.getD (b - a) 0 else init b := by
  induction bs generalizing a with
  | nil => simp [Memory.cellsFrom]
  | cons x bs ih =>
    simp only [Memory.cellsFrom, List.length_cons]
    by_cases hb : b = a
    · subst hb
      have hout : ¬ (b + 1 ≤ b ∧ b < b + 1 + bs.length) := by omega
      by_cases hx : x = init b
      · simp [hx, ih]
      · simp [hx, Memory.read]
    · have key : Memory.read init (Memory.cellsFrom init (a + 1) bs) b
          = if a ≤ b ∧ b < a + (bs.length + 1) then (x :: bs).getD (b - a) 0 else init b := by
        rw [ih]
        by_cases hr : a + 1 ≤ b ∧ b < a + 1 + bs.length
        · have hr' : a ≤ b ∧ b < a + (bs.length + 1) := by omega
          have hs : b - a = (b - (a + 1)) + 1 := by omega
          rw [if_pos hr, if_pos hr', hs, List.getD_cons_succ]
        · have hr' : ¬ (a ≤ b ∧ b < a + (bs.length + 1)) := by omega
          rw [if_neg hr, if_neg hr']
      split
      · exact key
      · simp only [Memory.read, Ne.symm hb, if_false]; exact key

/-- Read after write: the written bytes where they were written, what was there before elsewhere. It holds of every
list of cells, canonical or not. -/
theorem Memory.read_splice (m : Memory) (a b : Nat) (bs : List Byte) :
    Memory.read init (Memory.splice init m a bs) b
      = if a ≤ b ∧ b < a + bs.length then bs.getD (b - a) 0 else Memory.read init m b := by
  unfold Memory.splice
  by_cases hlo : b < a
  · have h1 : ∀ c ∈ Memory.cellsFrom init a bs ++ m.filter (fun c => decide (a + bs.length ≤ c.1)), c.1 ≠ b := by
      intro c hc
      rcases List.mem_append.1 hc with h | h
      · have := Memory.cellsFrom_fst c h; omega
      · simp only [List.mem_filter, decide_eq_true_eq] at h; omega
    rw [List.append_assoc, Memory.read_append_of_right_absent h1,
      Memory.read_filter_of_keep m (p := fun x => decide (x < a)) (by simpa using hlo), if_neg (by omega)]
  · have h0 : ∀ c ∈ m.filter (fun c => decide (c.1 < a)), c.1 ≠ b := by
      intro c hc
      simp only [List.mem_filter, decide_eq_true_eq] at hc; omega
    rw [List.append_assoc, Memory.read_append_of_left_absent h0]
    by_cases hhi : a + bs.length ≤ b
    · have h1 : ∀ c ∈ Memory.cellsFrom init a bs, c.1 ≠ b := by
        intro c hc
        have := Memory.cellsFrom_fst c hc; omega
      rw [Memory.read_append_of_left_absent h1,
        Memory.read_filter_of_keep m (p := fun x => decide (a + bs.length ≤ x)) (by simpa using hhi), if_neg (by omega)]
    · have h2 : ∀ c ∈ m.filter (fun c => decide (a + bs.length ≤ c.1)), c.1 ≠ b := by
        intro c hc
        simp only [List.mem_filter, decide_eq_true_eq] at hc; omega
      rw [Memory.read_append_of_right_absent h2, Memory.read_cellsFrom, if_pos (by omega), if_pos (by omega)]

theorem Memory.read_splice_one (m : Memory) (a b : Nat) (v : Byte) :
    Memory.read init (Memory.splice init m a [v]) b = if b = a then v else Memory.read init m b := by
  rw [Memory.read_splice]
  by_cases h : b = a
  · subst h; simp
  · rw [if_neg (by simp only [List.length_singleton]; omega), if_neg h]

theorem Memory.cellsFrom_pairwise (a : Nat) (bs : List Byte) :
    (Memory.cellsFrom init a bs).Pairwise fun c d => c.1 < d.1 := by
  induction bs generalizing a with
  | nil => exact List.Pairwise.nil
  | cons b bs ih =>
    simp only [Memory.cellsFrom]
    split
    · exact ih (a + 1)
    · refine List.Pairwise.cons (fun c hc => ?_) (ih (a + 1))
      have := Memory.cellsFrom_fst c hc
      show a < c.1
      omega

theorem Memory.cellsFrom_ne_init (a : Nat) (bs : List Byte) :
    ∀ c ∈ Memory.cellsFrom init a bs, c.2 ≠ init c.1 := by
  induction bs generalizing a with
  | nil => simp [Memory.cellsFrom]
  | cons b bs ih =>
    simp only [Memory.cellsFrom]
    split
    · exact ih (a + 1)
    · rename_i hb
      intro c hc
      rcases List.mem_cons.1 hc with rfl | h
      · exact hb
      · exact ih (a + 1) c h

/-- A write inside the space keeps the canonical form. -/
theorem Memory.splice_wf {size : Nat} {m : Memory} {a : Nat} {bs : List Byte} (hm : Memory.wf init size m)
    (hfit : bs = [] ∨ a + bs.length ≤ size) : Memory.wf init size (Memory.splice init m a bs) := by
  obtain ⟨hsort, hcells⟩ := hm
  refine ⟨?_, ?_⟩
  · unfold Memory.splice
    rw [List.append_assoc]
    refine List.pairwise_append.2 ⟨hsort.filter _, List.pairwise_append.2
      ⟨Memory.cellsFrom_pairwise a bs, hsort.filter _, ?_⟩, ?_⟩
    · intro c hc d hd
      have := Memory.cellsFrom_fst c hc
      simp only [List.mem_filter, decide_eq_true_eq] at hd; omega
    · intro c hc d hd
      simp only [List.mem_filter, decide_eq_true_eq] at hc
      rcases List.mem_append.1 hd with h | h
      · have := Memory.cellsFrom_fst d h; omega
      · simp only [List.mem_filter, decide_eq_true_eq] at h; omega
  · intro c hc
    unfold Memory.splice at hc
    rcases List.mem_append.1 hc with h | h
    · rcases List.mem_append.1 h with h | h
      · exact hcells c (List.mem_filter.1 h).1
      · refine ⟨?_, Memory.cellsFrom_ne_init a bs c h⟩
        have := Memory.cellsFrom_fst c h
        rcases hfit with rfl | hf
        · simp [Memory.cellsFrom] at h
        · omega
    · exact hcells c (List.mem_filter.1 h).1

@[simp] theorem Memory.bytes_length (m : Memory) (a n : Nat) : (Memory.bytes init m a n).length = n := by
  induction n generalizing a with
  | zero => rfl
  | succ n ih => simp [Memory.bytes, ih]

theorem Memory.bytes_getD (m : Memory) (a n k : Nat) (h : k < n) :
    (Memory.bytes init m a n).getD k 0 = Memory.read init m (a + k) := by
  induction n generalizing a k with
  | zero => omega
  | succ n ih =>
    cases k with
    | zero => simp [Memory.bytes]
    | succ k =>
      rw [Memory.bytes, List.getD_cons_succ, ih (a + 1) k (by omega)]
      congr 1; omega

@[simp] theorem byteRun_length (n : Nat) (v : Byte) : (byteRun n v).length = n := by simp [byteRun]

theorem byteRun_getD (n k : Nat) (v : Byte) (h : k < n) : (byteRun n v).getD k 0 = v := by
  simp [byteRun, List.getD, h]

/-- Filling `n` bytes with `v` reads as `v` there and as before elsewhere. -/
theorem Memory.read_fill (m : Memory) (a b n : Nat) (v : Byte) :
    Memory.read init (Memory.splice init m a (byteRun n v)) b
      = if a ≤ b ∧ b < a + n then v else Memory.read init m b := by
  rw [Memory.read_splice, byteRun_length]
  split
  · exact byteRun_getD _ _ _ (by omega)
  · rfl

/-- A canonical memory is determined by what it reads as. -/
theorem Memory.ext_of_wf {size : Nat} {m n : Memory} (hm : Memory.wf init size m) (hn : Memory.wf init size n)
    (h : ∀ a, Memory.read init m a = Memory.read init n a) : m = n := by
  induction m generalizing n with
  | nil =>
    cases n with
    | nil => rfl
    | cons d n =>
      have := h d.1
      simp only [Memory.read, if_true] at this
      exact absurd this.symm (hn.2 d (by simp)).2
  | cons c m ih =>
    cases n with
    | nil =>
      have := h c.1
      simp only [Memory.read, if_true] at this
      exact absurd this (hm.2 c (by simp)).2
    | cons d n =>
      have hm1 := List.pairwise_cons.1 hm.1
      have hn1 := List.pairwise_cons.1 hn.1
      have below : ∀ {x : Host.Cell} {l : Memory} {a : Nat}, (∀ e ∈ l, x.1 < e.1) → a < x.1 →
          Memory.read init (x :: l) a = init a := fun {x l a} hl ha =>
        Memory.read_absent fun e he => by
          rcases List.mem_cons.1 he with rfl | he
          · omega
          · have := hl e he; omega
      have hcd : c.1 = d.1 := by
        rcases Nat.lt_trichotomy c.1 d.1 with hlt | heq | hgt
        · have := h c.1
          rw [below hn1.1 hlt] at this
          simp only [Memory.read, if_true] at this
          exact absurd this (hm.2 c (by simp)).2
        · exact heq
        · have := h d.1
          rw [below hm1.1 hgt] at this
          simp only [Memory.read, if_true] at this
          exact absurd this.symm (hn.2 d (by simp)).2
      have hv : c.2 = d.2 := by
        have := h c.1
        simpa only [Memory.read, if_true, hcd] using this
      have hrest : m = n := by
        refine ih ⟨hm1.2, fun e he => hm.2 e (by simp [he])⟩ ⟨hn1.2, fun e he => hn.2 e (by simp [he])⟩ fun a => ?_
        by_cases ha : c.1 = a
        · subst ha
          rw [Memory.read_absent fun e he => by have := hm1.1 e he; omega,
            Memory.read_absent fun e he => by have := hn1.1 e he; omega]
        · have := h a
          simpa only [Memory.read, ha, hcd ▸ ha, if_false] using this
      rw [hrest, Prod.ext hcd hv]

end Sys2Proof.Machine
end

