-- ==== Sys2Proof/Laws/Pixel.lean ====
section
/-! SUPPORT. The laws of the nibble helpers (40_addressing_pixel.md R75), of the translator on on-screen pixels (R73),
and of plot (R74): one lemma that says everything a sequence of plots does. -/

namespace Sys2Proof.Machine

/-! ## Nibbles -/

/-- The bits of two nibbles put together. -/
theorem getLsbD_nibbles (hi lo : Nibble) (i : Nat) :
    BitVec.getLsbD (w := 8) (hi ++ lo) i = if i < 4 then lo.getLsbD i else hi.getLsbD (i - 4) :=
  BitVec.getLsbD_append

theorem getNib_putNib_same (b : Byte) (n : NibbleSel) (c : Nibble) : getNib (putNib b n c) n = c := by
  cases n <;> ext i hi <;> simp [getNib, putNib, getLsbD_nibbles, hi]

theorem getNib_putNib_other (b : Byte) {n k : NibbleSel} (c : Nibble) (h : k ≠ n) :
    getNib (putNib b n c) k = getNib b k := by
  cases n <;> cases k <;> first | exact absurd rfl h | skip
  all_goals ext i hi; simp [getNib, putNib, getLsbD_nibbles, hi]

/-- A byte is its two nibbles. -/
theorem byte_ext_of_nibbles {b d : Byte} (h : ∀ n, getNib b n = getNib d n) : b = d := by
  have hl := h .low
  have hh := h .high
  simp only [getNib] at hl hh
  apply BitVec.eq_of_toNat_eq
  have hl' := congrArg BitVec.toNat hl
  have hh' := congrArg BitVec.toNat hh
  simp only [BitVec.extractLsb'_toNat, Nat.shiftRight_eq_div_pow] at hl' hh'
  have := b.isLt
  have := d.isLt
  omega

theorem getNib_putNib (b : Byte) (n k : NibbleSel) (c : Nibble) :
    getNib (putNib b n c) k = if k = n then c else getNib b k := by
  by_cases h : k = n
  · subst h; simp [getNib_putNib_same]
  · simp [h, getNib_putNib_other b c h]

/-! ## The translator on the screen -/

theorem onScreen_iff (s : State) (x y : Int) :
    onScreen s x y = true ↔ 0 ≤ x ∧ x < s.width ∧ 0 ≤ y ∧ y < s.height := by simp [onScreen]

/-- R73: an on-screen pixel's index lies below `W * H`. -/
theorem pixelIndex_range {s : State} {x y : Int} (h : onScreen s x y = true) :
    0 ≤ pixelIndex s x y ∧ pixelIndex s x y < s.width * s.height := by
  obtain ⟨hx0, hxw, hy0, hyh⟩ := (onScreen_iff s x y).1 h
  unfold pixelIndex
  constructor
  · have : 0 ≤ (s.height - y - 1) * s.width := mul_nonneg (by omega) (by omega)
    omega
  · have : (s.height - y - 1) * s.width ≤ (s.height - 1) * s.width :=
      mul_le_mul_of_nonneg_right (by omega) (by omega)
    nlinarith

/-- R73: on-screen pixels have distinct indices. -/
theorem pixelIndex_injective {s : State} {x y u v : Int} (h : onScreen s x y = true) (k : onScreen s u v = true)
    (e : pixelIndex s x y = pixelIndex s u v) : x = u ∧ y = v := by
  obtain ⟨hx0, hxw, hy0, hyh⟩ := (onScreen_iff s x y).1 h
  obtain ⟨hu0, huw, hv0, hvh⟩ := (onScreen_iff s u v).1 k
  unfold pixelIndex at e
  have hy : y = v := by
    rcases lt_trichotomy y v with hlt | heq | hgt
    · exfalso
      have : s.width ≤ (v - y) * s.width := le_mul_of_one_le_left (by omega) (by omega)
      nlinarith
    · exact heq
    · exfalso
      have : s.width ≤ (y - v) * s.width := le_mul_of_one_le_left (by omega) (by omega)
      nlinarith
  subst hy
  exact ⟨by omega, rfl⟩

/-- The index is fixed by its address and its nibble. -/
theorem index_of_address_nibble {p q : Int} (ha : byteAddress p = byteAddress q) (hn : nibbleSel p = nibbleSel q) :
    p = q := by
  simp only [byteAddress, nibbleSel] at ha hn
  split at hn <;> split at hn <;> first | omega | cases hn

/-- The product bound as integers. -/
theorem width_mul_height_le {s : State} (h : s.w.toNat * s.h.toNat ≤ Config.maxPixels) :
    s.width * s.height ≤ 16384 := by
  have : ((s.w.toNat * s.h.toNat : Nat) : Int) ≤ ((Config.maxPixels : Nat) : Int) := Int.ofNat_le.2 h
  simpa [State.width, State.height, Config.maxPixels] using this

/-- R73: under the product bound an on-screen pixel lies in the screen region. -/
theorem byteAddress_range {s : State} {x y : Int} (h : onScreen s x y = true)
    (hd : s.w.toNat * s.h.toNat ≤ Config.maxPixels) :
    0x6000 ≤ byteAddress (pixelIndex s x y) ∧ byteAddress (pixelIndex s x y) ≤ 0x7FFF := by
  have hr := pixelIndex_range h
  have := width_mul_height_le hd
  simp only [byteAddress, Config.screenBase]
  omega

/-! ## plot -/

/-- The (address, nibble) pair of a pixel. -/
def cellOf (s : State) (pt : Point) : Nat × NibbleSel :=
  ((byteAddress (pixelIndex s pt.x pt.y)).toNat, nibbleSel (pixelIndex s pt.x pt.y))

theorem plot_offScreen {s : State} (c : Nibble) {pt : Point} (h : onScreen s pt.x pt.y = false) :
    plot s c pt = .ok s := by simp [plot, h]

/-- R74 on-screen: the one byte that holds the pixel is written, with its other nibble kept. -/
theorem plot_onScreen {s : State} (c : Nibble) {pt : Point} (h : onScreen s pt.x pt.y = true)
    (hd : s.w.toNat * s.h.toNat ≤ Config.maxPixels) :
    plot s c pt = .ok (s.setRam (cellOf s pt).1 [putNib (ramByte s (cellOf s pt).1) (cellOf s pt).2 c]) := by
  have hr := byteAddress_range h hd
  have hin : inRam (byteAddress (pixelIndex s pt.x pt.y)) = true := by
    simp only [inRam, Config.ramSize, decide_eq_true_eq]; omega
  simp only [plot, h, if_true, memRead, hin, memWrite, cellOf]
  have hb : (0 : Int) ≤ ((putNib (ramByte s (byteAddress (pixelIndex s pt.x pt.y)).toNat)
      (nibbleSel (pixelIndex s pt.x pt.y)) c).toNat : Int) ∧
      ((putNib (ramByte s (byteAddress (pixelIndex s pt.x pt.y)).toNat)
      (nibbleSel (pixelIndex s pt.x pt.y)) c).toNat : Int) < 256 := by
    have := (putNib (ramByte s (byteAddress (pixelIndex s pt.x pt.y)).toNat)
      (nibbleSel (pixelIndex s pt.x pt.y)) c).isLt
    omega
  simp [hb]

/-- Everything a sequence of plots does (R74, R84): it succeeds, only RAM changes, RAM keeps its canonical form, and a
nibble of RAM holds the color exactly when an on-screen plotted pixel has that nibble, and is unchanged otherwise. -/
theorem plotAll_spec (c : Nibble) (pts : List Point) {s : State} (hd : s.w.toNat * s.h.toNat ≤ Config.maxPixels) :
    ∃ m : Memory, plotAll c pts s = .ok { s with ram := m } ∧
      (Memory.wf Config.ramInit Config.ramSize s.ram → Memory.wf Config.ramInit Config.ramSize m) ∧
      ∀ a n, getNib (Memory.read Config.ramInit m a) n =
        if ∃ pt ∈ pts, onScreen s pt.x pt.y = true ∧ cellOf s pt = (a, n) then c else getNib (ramByte s a) n := by
  induction pts generalizing s with
  | nil => exact ⟨s.ram, rfl, id, fun a n => by simp [ramByte]⟩
  | cons pt pts ih =>
    by_cases h : onScreen s pt.x pt.y = true
    · obtain ⟨m, hm, hwf, hread⟩ := ih (s := s.setRam (cellOf s pt).1
        [putNib (ramByte s (cellOf s pt).1) (cellOf s pt).2 c]) hd
      refine ⟨m, by simp only [plotAll, plot_onScreen c h hd, hm]; rfl, fun hw => hwf (Memory.splice_wf hw ?_), ?_⟩
      · have := byteAddress_range h hd
        right
        simp only [cellOf, List.length_singleton, Config.ramSize]
        omega
      · intro a n
        rw [hread]
        have hsame : ∀ p : Point, cellOf (s.setRam (cellOf s pt).1
          [putNib (ramByte s (cellOf s pt).1) (cellOf s pt).2 c]) p = cellOf s p := fun _ => rfl
        simp only [onScreen_setRam, hsame, List.mem_cons, exists_eq_or_imp, h, true_and]
        by_cases hex : ∃ p ∈ pts, onScreen s p.x p.y = true ∧ cellOf s p = (a, n)
        · simp [hex]
        · simp only [hex, or_false, if_false, ramByte, setRam_ram, Memory.read_splice_one]
          by_cases ha : a = (cellOf s pt).1
          · rw [if_pos ha, getNib_putNib, ← ha]
            by_cases hn : n = (cellOf s pt).2
            · rw [if_pos hn, if_pos (Prod.ext ha.symm hn.symm)]
            · rw [if_neg hn, if_neg fun e => hn (by rw [e])]
          · rw [if_neg ha, if_neg fun e => ha (by rw [e])]
    · have h' : onScreen s pt.x pt.y = false := by simpa using h
      obtain ⟨m, hm, hwf, hread⟩ := ih (s := s) hd
      exact ⟨m, by simp only [plotAll, plot_offScreen c h', hm], hwf, fun a n => by
        rw [hread]; simp [h']⟩

end Sys2Proof.Machine
end

