-- ==== Sys2Proof/Laws/Exec.lean ====
section
/-! SUPPORT. The response word's fields (30_encoding.md R66), what a command's end and a drawing command's plots can
do, and the one inversion lemma of `exec`. -/

namespace Sys2Proof.Machine

/-! ## The response word -/

theorem getLsbD_responseWord (st : Status) (nib : NibbleSel) (data : BitVec 32) (i : Nat) :
    (responseWord st nib data).getLsbD i =
      if i < 8 then (statusCode st).getLsbD i
      else if i < 9 then (nibbleBit nib).getLsbD (i - 8)
      else if i < 32 then false else data.getLsbD (i - 32) := by
  have e : (responseWord st nib data).getLsbD i =
      (((data ++ (0 : BitVec 23)) ++ nibbleBit nib) ++ statusCode st).getLsbD i := rfl
  rw [e, BitVec.getLsbD_append, BitVec.getLsbD_append, BitVec.getLsbD_append]
  by_cases h1 : i < 8
  · simp [h1]
  · by_cases h2 : i < 9
    · simp [h1, h2, show i - 8 < 1 by omega]
    · by_cases h3 : i < 32
      · simp [h1, h2, h3, show ¬ i - 8 < 1 by omega, show i - 8 - 1 < 23 by omega]
      · simp [h1, h2, h3, show ¬ i - 8 < 1 by omega, show ¬ i - 8 - 1 < 23 by omega, show i - 8 - 1 - 23 = i - 32 by omega]

@[simp] theorem rspStatus_responseWord (st : Status) (nib : NibbleSel) (data : BitVec 32) :
    rspStatus (responseWord st nib data) = statusCode st := by
  ext i hi
  simp [rspStatus, getLsbD_responseWord, hi]

@[simp] theorem rspNib_responseWord (st : Status) (nib : NibbleSel) (data : BitVec 32) :
    rspNib (responseWord st nib data) = nibbleBit nib := by
  ext i hi
  simp [rspNib, getLsbD_responseWord, show 8 + i < 9 by omega, BitVec.getLsbD_eq_getElem hi]

@[simp] theorem rspZero_responseWord (st : Status) (nib : NibbleSel) (data : BitVec 32) :
    rspZero (responseWord st nib data) = 0 := by
  ext i hi
  simp [rspZero, getLsbD_responseWord, show ¬ 9 + i < 8 by omega, show ¬ 9 + i < 9 by omega, show 9 + i < 32 by omega]

@[simp] theorem rspData_responseWord (st : Status) (nib : NibbleSel) (data : BitVec 32) :
    rspData (responseWord st nib data) = data := by
  ext i hi
  simp [rspData, getLsbD_responseWord, show ¬ 32 + i < 8 by omega, show ¬ 32 + i < 9 by omega,
    show ¬ 32 + i < 32 by omega, BitVec.getLsbD_eq_getElem hi]

theorem statusCode_eq_zero (st : Status) : statusCode st = 0 ↔ st = .ok := by cases st <;> decide

/-- A response whose failing statuses carry no NIB and no DATA is laid out as R66 says. -/
theorem legalResponse_responseWord {st : Status} {nib : NibbleSel} {data : BitVec 32}
    (h : st ≠ .ok → nib = .low ∧ data = 0) : LegalResponse (responseWord st nib data) where
  code := by rw [rspStatus_responseWord]; cases st <;> decide
  zeros := rspZero_responseWord ..
  failure hs := by
    rw [rspStatus_responseWord, Ne, statusCode_eq_zero] at hs
    obtain ⟨rfl, rfl⟩ := h hs
    simp [nibbleBit]

/-! ## Drawing -/

/-- A plot that succeeds changes only RAM. -/
theorem plot_ok {s u : State} {c : Nibble} {pt : Point} (h : plot s c pt = .ok u) : u = { s with ram := u.ram } := by
  unfold plot at h
  split at h
  · simp only [memRead, memWrite] at h
    split at h
    · split at h
      · cases h; rfl
      · cases h
    · cases h
  · cases h; rfl

/-- A sequence of plots that succeeds changes only RAM. -/
theorem plotAll_ok {c : Nibble} {pts : List Point} {s u : State} (h : plotAll c pts s = .ok u) :
    u = { s with ram := u.ram } := by
  induction pts generalizing s with
  | nil => cases h; rfl
  | cons pt pts ih =>
    simp only [plotAll] at h
    split at h
    · rename_i s' hs
      have h1 := plot_ok hs
      have h2 := ih h
      rw [h1] at h2
      exact h2
    · cases h

theorem plotAll_append (c : Nibble) (ps qs : List Point) (s : State) :
    plotAll c (ps ++ qs) s =
      match plotAll c ps s with
      | .ok u => plotAll c qs u
      | .error st => .error st := by
  induction ps generalizing s with
  | nil => rfl
  | cons p ps ih =>
    simp only [List.cons_append, plotAll]
    split
    · exact ih _
    · rfl

/-- Off-screen plots may be left out (R94: the end state depends only on the on-screen pixels). -/
theorem plotAll_filter_onScreen (c : Nibble) (pts : List Point) (s : State) :
    plotAll c (pts.filter fun p => onScreen s p.x p.y) s = plotAll c pts s := by
  induction pts generalizing s with
  | nil => rfl
  | cons p pts ih =>
    by_cases h : onScreen s p.x p.y = true
    · simp only [List.filter, h, plotAll]
      split
      · rename_i u hu
        have e : (fun q : Point => onScreen s q.x q.y) = fun q => onScreen u q.x q.y := by
          rw [plot_ok hu]; rfl
        rw [e]; exact ih u
      · rfl
    · have h' : onScreen s p.x p.y = false := by simpa using h
      simp only [List.filter, h', plotAll, plot_offScreen c h']
      exact ih s

/-! ## exec -/

/-- What no command changes: the parameters, ROM, and the host's own fields. -/
structure KeepsHost (s u : State) : Prop where
  palette : u.palette = s.palette
  lineTie : u.lineTie = s.lineTie
  rom : u.rom = s.rom
  input : u.input = s.input
  answer : u.answer = s.answer

theorem KeepsHost.refl (s : State) : KeepsHost s s := ⟨rfl, rfl, rfl, rfl, rfl⟩

/-- A command ends: a state `u` before the response, a status, and on failure nothing changed and no result. -/
def Ends (s : State) (r : Result) : Prop :=
  ∃ u st nib data, r = .next (u.endCommand (responseWord st nib data)) ∧
    (st ≠ .ok → u = s ∧ nib = .low ∧ data = 0) ∧ KeepsHost s u

theorem ends_raise (st : Status) (s : State) : Ends s (raise st s) :=
  ⟨s, st, .low, 0, rfl, fun _ => ⟨rfl, rfl, rfl⟩, KeepsHost.refl s⟩

theorem ends_respond {s u : State} (nib : NibbleSel) (data : BitVec 32) (h : KeepsHost s u) :
    Ends s (respond nib data u) := ⟨u, .ok, nib, data, rfl, fun h => absurd rfl h, h⟩

theorem ends_drawPoints (col : Int) (pts : List Point) (s : State) : Ends s (drawPoints col pts s) := by
  unfold drawPoints
  split
  · rename_i u hu
    have h := plotAll_ok hu
    exact ends_respond _ _ (by rw [h]; exact ⟨rfl, rfl, rfl, rfl, rfl⟩)
  · exact ends_raise _ _

theorem ends_drawing (col : Int) (pts : List Point) (s : State) :
    Ends s (if configured s then drawPoints col pts s else raise .notConfigured s) := by
  split
  · exact ends_drawPoints ..
  · exact ends_raise ..

/-- A fill inside RAM of a byte value succeeds (20_memory.md R39). -/
theorem memFill_ok {s : State} {a v n : Int} (hn : 0 ≤ n) (ha : n = 0 ∨ (0 ≤ a ∧ a + n ≤ Config.ramSize))
    (hv : 0 ≤ v ∧ v < 256) : memFill s a v n = .ok (s.setRam a.toNat (byteRun n.toNat (BitVec.ofInt 8 v))) := by
  unfold memFill
  rw [if_neg (by omega), if_neg (by omega), if_neg (by omega)]

/-- CLS always succeeds (R85). -/
theorem execCls_eq (s : State) :
    execCls s = respond .low 0 (s.setRam Config.screenBase (byteRun Config.screenBytes 0)) := by
  unfold execCls
  rw [memFill_ok (by decide) (by decide) (by decide)]
  rfl

/-- The inversion lemma of exec: every command ends with a response; a failing one has changed nothing else. -/
theorem exec_ends (i : Instr) (s : State) : Ends s (exec i s) := by
  cases i with
  | cfg wv hv w h =>
    simp only [exec, execCfg]
    by_cases hp : ((s.wSet || wv) && (s.hSet || hv) && decide (Config.maxPixels <
        (if s.wSet then s.w.toNat else w) * (if s.hSet then s.h.toNat else h))) = true
    · rw [if_pos hp]
      exact ends_raise ..
    · rw [if_neg hp]
      exact ends_respond _ _ ⟨rfl, rfl, rfl, rfl, rfl⟩
  | xlate x y =>
    simp only [exec, execXlate]
    split
    · exact ends_respond _ _ (KeepsHost.refl s)
    · exact ends_raise ..
  | pget x y =>
    simp only [exec, execPget]
    split
    · split
      · exact ends_respond _ _ (KeepsHost.refl s)
      · exact ends_raise ..
    · exact ends_raise ..
  | pset x y col => exact ends_drawing ..
  | cls =>
    rw [exec, execCls_eq]
    exact ends_respond _ _ ⟨rfl, rfl, rfl, rfl, rfl⟩
  | line x0 y0 x1 y1 col => exact ends_drawing ..
  | rect x0 y0 x1 y1 col => exact ends_drawing ..
  | rectfill x0 y0 x1 y1 col => exact ends_drawing ..
  | circ cx cy r col => exact ends_drawing ..
  | circfill cx cy r col => exact ends_drawing ..
  | color idx =>
    simp only [exec, execColor]
    split
    · exact ends_respond _ _ ⟨rfl, rfl, rfl, rfl, rfl⟩
    · exact ends_raise ..
  | pal idx =>
    simp only [exec, execPal]
    split
    · exact ends_respond _ _ (KeepsHost.refl s)
    · exact ends_raise ..

/-- A configured drawing command under the product bound draws its points and answers OK. -/
theorem drawPoints_eq (col : Int) (pts : List Point) {s : State} (hd : s.w.toNat * s.h.toNat ≤ Config.maxPixels) :
    ∃ m : Memory, drawPoints col pts s = respond .low 0 { s with ram := m } ∧
      (Memory.wf Config.ramInit Config.ramSize s.ram → Memory.wf Config.ramInit Config.ramSize m) ∧
      ∀ a n, getNib (Memory.read Config.ramInit m a) n =
        if ∃ pt ∈ pts, onScreen s pt.x pt.y = true ∧ cellOf s pt = (a, n) then resolve s col
        else getNib (ramByte s a) n := by
  obtain ⟨m, hm, hwf, hr⟩ := plotAll_spec (resolve s col) pts hd
  exact ⟨m, by simp [drawPoints, hm], hwf, hr⟩

end Sys2Proof.Machine
end

