-- ==== Sys2Proof/Laws/Engine.lean ====
section
/-! SUPPORT. What one step can do, said once: the cases of `step`, and what an abandoned command leaves in RAM. -/

namespace Sys2Proof.Machine

/-- A RAM that only in-range writes have changed. -/
def RamKept (s : State) (m : Memory) : Prop :=
  Memory.wf Config.ramInit Config.ramSize s.ram → Memory.wf Config.ramInit Config.ramSize m

/-- Plots keep the canonical form of RAM in every state, whatever its dimensions. -/
theorem plot_ramKept {s u : State} {c : Nibble} {pt : Point} (h : plot s c pt = .ok u) : RamKept s u.ram := by
  intro hw
  unfold plot at h
  split at h
  · simp only [memRead, memWrite] at h
    split at h
    · rename_i hr
      split at hr
      · split at h
        · rename_i hin _
          cases h
          refine Memory.splice_wf hw (.inr ?_)
          simp only [inRam, decide_eq_true_eq, Config.ramSize] at hin
          simp only [List.length_singleton, Config.ramSize]
          omega
        · cases h
      · cases hr
    · cases h
  · cases h; exact hw

theorem plotAll_ramKept {c : Nibble} {pts : List Point} {s u : State} (h : plotAll c pts s = .ok u) :
    RamKept s u.ram := by
  induction pts generalizing s with
  | nil => cases h; exact id
  | cons pt pts ih =>
    simp only [plotAll] at h
    split at h
    · rename_i v hv
      exact fun hw => ih h (plot_ramKept hv hw)
    · cases h

theorem ramAfterPlots_ramKept (col : Int) (pts : List Point) (k : Nat) (s : State) :
    RamKept s (ramAfterPlots col pts k s) := by
  unfold ramAfterPlots
  split
  · split
    · exact plotAll_ramKept (by assumption)
    · exact id
  · exact id

theorem abandonedRam_ramKept (i : Instr) (k : Nat) (s : State) : RamKept s (abandonedRam i k s) := by
  cases i with
  | cls => exact fun hw => Memory.splice_wf hw (.inr (by
      simp only [byteRun_length, Config.screenBase, Config.screenBytes, Config.ramSize]; omega))
  | pset | line | rect | rectfill | circ | circfill => exact ramAfterPlots_ramKept _ _ _ _
  | cfg | xlate | pget | color | pal => exact id

/-- What a host memory operation can do: tell the host something, or write in range and tell it done. -/
inductive HostOpCase (u : State) : State → Prop where
  | told (ans : HostAnswer) : HostOpCase u { u with answer := some ans }
  | ram (a : Nat) (bs : List Byte) (fit : bs = [] ∨ a + bs.length ≤ Config.ramSize) :
      HostOpCase u { u.setRam a bs with answer := some .done }
  | rom (a : Nat) (bs : List Byte) (fit : bs = [] ∨ a + bs.length ≤ Config.romSize) :
      HostOpCase u { u.setRom a bs with answer := some .done }

theorem memWrite_ok {s u : State} {a v : Int} (h : memWrite s a v = .ok u) :
    u = s.setRam a.toNat [BitVec.ofInt 8 v] ∧ a.toNat + 1 ≤ Config.ramSize := by
  simp only [memWrite] at h
  split at h
  · rename_i hc
    cases h
    simp only [inRam, Bool.and_eq_true, decide_eq_true_eq, Config.ramSize] at hc
    simp only [Config.ramSize, true_and]; omega
  · cases h

theorem memFill_fits {s u : State} {a v n : Int} (h : memFill s a v n = .ok u) :
    u = s.setRam a.toNat (byteRun n.toNat (BitVec.ofInt 8 v)) ∧
      (byteRun n.toNat (BitVec.ofInt 8 v) = [] ∨ a.toNat + (byteRun n.toNat (BitVec.ofInt 8 v)).length ≤ Config.ramSize) := by
  unfold memFill at h
  split at h
  · cases h
  · split at h
    · cases h
    · split at h
      · cases h
      · cases h
        refine ⟨rfl, ?_⟩
        rw [byteRun_length]
        by_cases hn : n = 0
        · left; subst hn; rfl
        · right; simp only [Config.ramSize] at *; omega

theorem endHostOp_cases {u : State} {r : Except Status State} {t : State} (h : endHostOp r u = .next t)
    (hr : ∀ v, r = .ok v → HostOpCase u { v with answer := some .done }) : HostOpCase u t := by
  unfold endHostOp tellHost at h
  split at h
  · cases h; exact hr _ rfl
  · cases h; exact .told _

theorem rangeOk_fits {init : Nat → Byte} {m : Memory} {a c n : Int} {size : Nat} (h : rangeOk a n size = true) (hn : 0 ≤ n) :
    Memory.bytes init m c.toNat n.toNat = [] ∨ a.toNat + (Memory.bytes init m c.toNat n.toNat).length ≤ size := by
  rw [Memory.bytes_length]
  simp only [rangeOk, decide_eq_true_eq] at h
  by_cases h0 : n = 0
  · left; subst h0; rfl
  · right; omega

/-- The cases of one step that goes on (the whole of what a step can do). -/
inductive StepCase (s : State) : State → Prop where
  /-- No action of the host. -/
  | idle (empty : s.input = []) (free : s.busy = false) : StepCase s s
  /-- A legal command ran. -/
  | command (cmd : CmdWord) (i : Instr) (rest : List HostAction) (t : State)
      (head : s.input = .command cmd :: rest) (free : s.busy = false)
      (dec : decode cmd = .ok i) (run : exec i (State.accept { s with input := rest }) = .next t) : StepCase s t
  /-- An illegal word was turned away. -/
  | illegal (cmd : CmdWord) (e : DecodeError) (rest : List HostAction)
      (head : s.input = .command cmd :: rest) (free : s.busy = false) (dec : decode cmd = .error e) :
      StepCase s ((State.accept { s with input := rest }).endCommand (responseWord .illegalCommand .low 0))
  /-- The host polled the interface. -/
  | poll (rest : List HostAction) (head : s.input = .poll :: rest) :
      StepCase s { s with input := rest, answer := some (.interface s.busy s.rspValid s.rsp) }
  /-- The host accessed memory. -/
  | host (a : HostAction) (rest : List HostAction) (t : State) (head : s.input = a :: rest) (free : s.busy = false)
      (op : HostOpCase { s with input := rest } t) : StepCase s t
  /-- Core reset. -/
  | reset (rest : List HostAction) (head : s.input = .reset :: rest) :
      StepCase s (State.coreReset { s with input := rest })
  /-- Core reset in the middle of a legal command. -/
  | abandoned (cmd : CmdWord) (k : Nat) (i : Instr) (rest : List HostAction)
      (head : s.input = .resetDuring cmd k :: rest) (free : s.busy = false) (dec : decode cmd = .ok i) :
      StepCase s { State.coreReset { s with input := rest } with ram := abandonedRam i k { s with input := rest } }
  /-- Core reset while an illegal word was being turned away. -/
  | abandonedIllegal (cmd : CmdWord) (k : Nat) (e : DecodeError) (rest : List HostAction)
      (head : s.input = .resetDuring cmd k :: rest) (free : s.busy = false) (dec : decode cmd = .error e) :
      StepCase s (State.coreReset { s with input := rest })

/-- A host access that goes on happened while BUSY = 0. -/
theorem hostAccess_next {op : State → Result} {u t : State} (h : hostAccess op u = .next t) :
    u.busy = false ∧ op u = .next t := by
  unfold hostAccess at h
  split at h
  · cases h
  · exact ⟨by simpa using (by assumption : ¬ u.busy = true), h⟩

theorem hostTransfer_cases {u t : State} {g : Bool} {v : State}
    (h : (if g then tellHost .done v else tellHost .outOfRange u) = .next t)
    (hv : g = true → HostOpCase u { v with answer := some .done }) : HostOpCase u t := by
  split at h
  · cases h; exact hv (by assumption)
  · cases h; exact .told _

theorem hostStore_cases {dest src len : Rat} {u t : State} (h : hostStore dest src len u = .next t) :
    HostOpCase u t :=
  hostTransfer_cases h fun hg => by
    simp only [Bool.and_eq_true, decide_eq_true_eq] at hg
    exact .rom _ _ (rangeOk_fits hg.2 hg.1.1)

/-- The inversion lemma of step. -/
theorem step_cases {s t : State} (h : step s = .next t) : StepCase s t := by
  unfold step at h
  split at h
  · rename_i he
    unfold Machine.idle at h
    split at h
    · cases h
    · cases h; exact .idle he (by simpa using (by assumption : ¬ s.busy = true))
  · rename_i a rest he
    cases a with
    | command cmd =>
      simp only [perform] at h
      split at h
      · cases h
      · rename_i hb
        have hb' : s.busy = false := by simpa using hb
        unfold runCommand at h
        split at h
        · exact .command cmd _ rest t he hb' (by assumption) h
        · cases h; exact .illegal cmd _ rest he hb' (by assumption)
    | poll => cases h; exact .poll rest he
    | read addr =>
      obtain ⟨hb, h⟩ := hostAccess_next h
      refine .host _ rest t he hb ?_
      unfold hostRead at h
      split at h <;> (cases h; exact .told _)
    | write addr val =>
      obtain ⟨hb, h⟩ := hostAccess_next h
      refine .host _ rest t he hb (endHostOp_cases h fun v hv => ?_)
      obtain ⟨rfl, hf⟩ := memWrite_ok hv
      exact .ram _ _ (.inr hf)
    | copy dest src len =>
      obtain ⟨hb, h⟩ := hostAccess_next h
      refine .host _ rest t he hb (hostTransfer_cases h fun hg => ?_)
      simp only [Bool.and_eq_true, decide_eq_true_eq] at hg
      exact .ram _ _ (rangeOk_fits hg.2 hg.1.1)
    | restore dest src len =>
      obtain ⟨hb, h⟩ := hostAccess_next h
      refine .host _ rest t he hb (hostTransfer_cases h fun hg => ?_)
      simp only [Bool.and_eq_true, decide_eq_true_eq] at hg
      exact .ram _ _ (rangeOk_fits hg.2 hg.1.1)
    | store dest src len =>
      obtain ⟨hb, h⟩ := hostAccess_next h
      exact .host _ rest t he hb (hostStore_cases h)
    | storeDefault =>
      obtain ⟨hb, h⟩ := hostAccess_next h
      exact .host _ rest t he hb (hostStore_cases h)
    | fill dest val len =>
      obtain ⟨hb, h⟩ := hostAccess_next h
      refine .host _ rest t he hb (endHostOp_cases h fun v hv => ?_)
      obtain ⟨rfl, hf⟩ := memFill_fits hv
      exact .ram _ _ hf
    | reset => cases h; exact .reset rest he
    | resetDuring cmd k =>
      simp only [perform] at h
      split at h
      · cases h
      · rename_i hb
        have hb' : s.busy = false := by simpa using hb
        unfold runAbandoned at h
        split at h
        · cases h; exact .abandoned cmd k _ rest he hb' (by assumption)
        · cases h; exact .abandonedIllegal cmd k _ rest he hb' (by assumption)

end Sys2Proof.Machine
end

