-- ==== Sys2Proof/Laws/Host.lean ====
section
/-! SUPPORT. What the host's argument conversions of 20_memory.md section 4 can give. -/

namespace Sys2Proof.Machine

/-- The range check of R46 and R50 on the converted value is the check on the value itself, fractional or not. -/
theorem hostValue_range (v : Rat) : (0 ≤ hostValue v ∧ hostValue v < 256) ↔ (0 ≤ v ∧ v < 256) := by
  unfold hostValue
  split
  · rename_i h
    have := (Config.fractionalByte v).isLt
    exact ⟨fun _ => h.2, fun _ => by omega⟩
  · exact ⟨fun ⟨a, b⟩ => ⟨by simpa using Rat.le_floor_iff.1 a, by simpa using Rat.floor_lt_iff.1 b⟩,
      fun ⟨a, b⟩ => ⟨Rat.le_floor_iff.2 (by simpa using a), Rat.floor_lt_iff.2 (by simpa using b)⟩⟩

/-- An integer value is stored as it is. -/
theorem hostValue_integer {v : Rat} (h : v.den = 1) : (hostValue v : Rat) = v := by
  conv_rhs => rw [← Rat.num_div_den v, h]
  simp [hostValue, h, Rat.floor]

/-- A byte holds every value of its range. -/
theorem byteOfInt_toNat {v : Int} (h : 0 ≤ v ∧ v < 256) : ((BitVec.ofInt 8 v).toNat : Int) = v := by
  simp only [BitVec.toNat_ofInt]; omega

/-- A transfer's guard: a length that is not negative and, unless it is 0, both ranges inside their spaces. -/
theorem rangeOk_iff (a n : Int) (size : Nat) : rangeOk a n size = true ↔ n = 0 ∨ (0 ≤ a ∧ a + n - 1 < (size : Int)) := by
  simp [rangeOk]

end Sys2Proof.Machine
end

