-- ==== Sys2Proof/Laws/Paint.lean ====
section
/-! SUPPORT. What a drawing command does to the screen, said once for every plot sequence. -/

namespace Sys2Proof.Machine

/-- An on-screen point's cell is the byte and nibble that the translator gives it. -/
theorem cellOf_eq_iff {s : State} {pt : Point} {a : Nat} {n : NibbleSel} (hd : s.w.toNat * s.h.toNat ≤ Config.maxPixels)
    (h : onScreen s pt.x pt.y = true) : cellOf s pt = (a, n) ↔ PixelHas s pt.x pt.y a n := by
  have r := byteAddress_range h hd
  simp only [cellOf, Prod.mk.injEq, PixelHas]
  constructor
  · rintro ⟨ha, hn⟩; exact ⟨by omega, hn⟩
  · rintro ⟨ha, hn⟩; exact ⟨by omega, hn⟩

/-- RAM after the first `k` plots of a sequence: the resolved color where one of them reaches, as before elsewhere. -/
theorem ramAfterPlots_nibble (col : Int) (pts : List Point) (k : Nat) {s : State} (hd : DimensionsOk s) (a : Nat)
    (n : NibbleSel) :
    (PlotsReach s (pts.take k) a n → getNib (Memory.read Config.ramInit (ramAfterPlots col pts k s) a) n = resolve s col) ∧
    (¬ PlotsReach s (pts.take k) a n →
      getNib (Memory.read Config.ramInit (ramAfterPlots col pts k s) a) n = getNib (ramByte s a) n) := by
  by_cases hc : configured s = true
  · obtain ⟨m, hm, -, hr⟩ := plotAll_spec (resolve s col) (pts.take k) (hd hc)
    have hram : ramAfterPlots col pts k s = m := by simp only [ramAfterPlots, hc, if_true, hm]
    have hiff : (∃ pt ∈ pts.take k, onScreen s pt.x pt.y = true ∧ cellOf s pt = (a, n)) ↔
        PlotsReach s (pts.take k) a n := by
      constructor
      · rintro ⟨pt, hp, ho, e⟩; exact ⟨hc, pt, hp, ho, (cellOf_eq_iff (hd hc) ho).1 e⟩
      · rintro ⟨-, pt, hp, ho, e⟩; exact ⟨pt, hp, ho, (cellOf_eq_iff (hd hc) ho).2 e⟩
    rw [hram]
    exact ⟨fun h => (hr a n).trans (if_pos (hiff.2 h)), fun h => (hr a n).trans (if_neg fun hx => h (hiff.1 hx))⟩
  · exact ⟨fun h => absurd h.1 hc, fun _ => by simp [ramAfterPlots, hc, ramByte]⟩

/-- On a configured core a plot sequence ends OK and paints exactly its on-screen points in the resolved color
(41_raster.md R84, R94). -/
theorem drawPoints_paints {s : State} {col : Int} {pts : List Point} {S : Int → Int → Prop} (hd : DimensionsOk s)
    (hc : configured s = true) (hS : ∀ x y, onScreen s x y = true → (⟨x, y⟩ ∈ pts ↔ S x y)) :
    ∃ t, drawPoints col pts s = .next t ∧ PaintsExactly s t (resolve s col) S := by
  obtain ⟨m, hm, -, hr⟩ := drawPoints_eq col pts (hd hc)
  have hit : ∀ {x y u v : Int}, onScreen s x y = true → onScreen s u v = true →
      cellOf s ⟨u, v⟩ = ((byteAddress (pixelIndex s x y)).toNat, nibbleSel (pixelIndex s x y)) → u = x ∧ v = y := by
    intro x y u v h k e
    have r1 := byteAddress_range h (hd hc)
    have r2 := byteAddress_range k (hd hc)
    simp only [cellOf, Prod.mk.injEq] at e
    exact pixelIndex_injective k h (index_of_address_nibble (by omega) e.2)
  have cell : ∀ {x y : Int} {a : Nat} {n : NibbleSel}, onScreen s x y = true → cellOf s ⟨x, y⟩ = (a, n) →
      PixelHas s x y a n := by
    intro x y a n h e
    have r := byteAddress_range h (hd hc)
    simp only [cellOf, Prod.mk.injEq] at e
    exact ⟨by omega, e.2⟩
  refine ⟨_, hm, rfl, fun x y ho hs => ?_, fun x y ho hs => ?_, fun a n h => ?_, fun a h => ?_⟩
  · exact (hr _ _).trans (if_pos ⟨⟨x, y⟩, (hS x y ho).2 hs, ho, rfl⟩)
  · refine (hr _ _).trans (if_neg ?_)
    rintro ⟨⟨u, v⟩, hp, ho', e⟩
    obtain ⟨rfl, rfl⟩ := hit ho ho' e
    exact hs ((hS _ _ ho).1 hp)
  · refine (hr _ _).trans (if_neg ?_)
    rintro ⟨⟨u, v⟩, hp, ho', e⟩
    exact h u v ho' ((hS u v ho').1 hp) (cell ho' e)
  · refine byte_ext_of_nibbles fun k => (hr _ _).trans (if_neg ?_)
    rintro ⟨⟨u, v⟩, hp, ho', e⟩
    exact h u v ho' ((hS u v ho').1 hp) (cell ho' e).1

end Sys2Proof.Machine
end

