-- ==== Sys2Proof/Laws/PerInstr.lean ====
section
/-! SUPPORT. Statements made for every instruction of PRC-1, one lemma per constructor. -/

namespace Sys2Proof.Laws.LegalEncoding

/-- The encoder never makes an illegal word: the opcode field holds the instruction's own number, which R59 assigns,
and no reserved FLG bit is set (30_encoding.md R62, R63). -/
def Statement (i : Instr) : Prop :=
  opField (encode i) = opcodeNumber i.opcode ∧ flgField (encode i) &&& reservedFlags i.opcode = 0

theorem cfg (wv hv : Bool) (w h : Nat) : Statement (.cfg wv hv w h) := by simp [Statement, encode, Instr.opcode]

theorem xlate (x y : Int) : Statement (.xlate x y) := by simp [Statement, encode, Instr.opcode]

theorem pget (x y : Int) : Statement (.pget x y) := by simp [Statement, encode, Instr.opcode]

theorem pset (x y col : Int) : Statement (.pset x y col) := by simp [Statement, encode, Instr.opcode]

theorem cls : Statement .cls := by simp [Statement, encode, Instr.opcode]

theorem line (x0 y0 x1 y1 col : Int) : Statement (.line x0 y0 x1 y1 col) := by simp [Statement, encode, Instr.opcode]

theorem rect (x0 y0 x1 y1 col : Int) : Statement (.rect x0 y0 x1 y1 col) := by simp [Statement, encode, Instr.opcode]

theorem rectfill (x0 y0 x1 y1 col : Int) : Statement (.rectfill x0 y0 x1 y1 col) := by
  simp [Statement, encode, Instr.opcode]

theorem circ (cx cy r col : Int) : Statement (.circ cx cy r col) := by simp [Statement, encode, Instr.opcode]

theorem circfill (cx cy r col : Int) : Statement (.circfill cx cy r col) := by simp [Statement, encode, Instr.opcode]

theorem color (idx : Int) : Statement (.color idx) := by simp [Statement, encode, Instr.opcode]

theorem pal (idx : Int) : Statement (.pal idx) := by simp [Statement, encode, Instr.opcode]

end Sys2Proof.Laws.LegalEncoding
end

