-- ==== Sys2Proof/Laws/Raster.lean ====
section
/-! SUPPORT. Which points the rasterizer's plot sequences hold (41_raster.md): membership of the loop ranges, the
rectangle outline and box, and the circle's octant points. -/

namespace Sys2Proof.Machine

theorem mem_intsFrom {v a : Int} {n : Nat} : v ∈ intsFrom a n ↔ a ≤ v ∧ v < a + n := by
  induction n generalizing a with
  | zero => simp [intsFrom]
  | succ n ih => simp only [intsFrom, List.mem_cons, ih]; omega

theorem mem_intRange {v a b : Int} : v ∈ intRange a b ↔ a ≤ v ∧ v ≤ b := by
  simp only [intRange, mem_intsFrom]; omega

/-- The outline of `[xa, xb] x [ya, yb]`: its horizontal edges and its vertical edges (R88). -/
theorem mem_outlinePoints {xa ya xb yb : Int} {p : Point} :
    p ∈ outlinePoints xa ya xb yb ↔
      (xa ≤ p.x ∧ p.x ≤ xb ∧ (p.y = ya ∨ p.y = yb)) ∨ (ya ≤ p.y ∧ p.y ≤ yb ∧ (p.x = xa ∨ p.x = xb)) := by
  cases p with
  | mk x y =>
    simp only [outlinePoints, List.mem_append, List.mem_flatMap, mem_intRange, List.mem_cons, Point.mk.injEq,
      List.not_mem_nil, or_false]
    constructor
    · rintro (⟨u, hu, h | h⟩ | ⟨u, hu, h | h⟩) <;> omega
    · rintro (⟨h1, h2, h3⟩ | ⟨h1, h2, h3⟩)
      · exact .inl ⟨x, ⟨h1, h2⟩, by omega⟩
      · exact .inr ⟨y, ⟨h1, h2⟩, by omega⟩

/-- The half-open box `[xa, xb) x [ya, yb)` (R89). -/
theorem mem_boxPoints {xa ya xb yb : Int} {p : Point} :
    p ∈ boxPoints xa ya xb yb ↔ xa ≤ p.x ∧ p.x < xb ∧ ya ≤ p.y ∧ p.y < yb := by
  cases p with
  | mk x y =>
    simp only [boxPoints, List.mem_flatMap, List.mem_map, mem_intRange, Point.mk.injEq]
    constructor
    · rintro ⟨v, hv, u, hu, rfl, rfl⟩; omega
    · intro h; exact ⟨y, by omega, x, by omega, rfl, rfl⟩

/-- Filtering a run of integers by a range gives the run of the intersection. -/
theorem filter_intsFrom (a lo hi : Int) (n : Nat) :
    (intsFrom a n).filter (fun v => decide (lo ≤ v ∧ v < hi)) = intRange (max a lo) (min (a + n) hi - 1) := by
  induction n generalizing a with
  | zero =>
    have : ((min (a + ((0 : Nat) : Int)) hi - 1) - max a lo + 1).toNat = 0 := by omega
    rw [intRange, this]; rfl
  | succ n ih =>
    simp only [intsFrom]
    by_cases h : lo ≤ a ∧ a < hi
    · rw [List.filter_cons_of_pos (by simpa using h), ih]
      have e : ((min (a + ((n + 1 : Nat) : Int)) hi - 1) - max a lo + 1).toNat =
          ((min (a + 1 + (n : Int)) hi - 1) - max (a + 1) lo + 1).toNat + 1 := by omega
      rw [intRange, intRange, e, show max a lo = a by omega, show max (a + 1) lo = a + 1 by omega]
      rfl
    · rw [List.filter_cons_of_neg (by simpa using h), ih]
      unfold intRange
      by_cases h2 : lo ≤ a
      · have e1 : ((min (a + 1 + (n : Int)) hi - 1) - max (a + 1) lo + 1).toNat = 0 := by omega
        have e2 : ((min (a + ((n + 1 : Nat) : Int)) hi - 1) - max a lo + 1).toNat = 0 := by omega
        rw [e1, e2]; rfl
      · rw [show max a lo = lo by omega, show max (a + 1) lo = lo by omega]
        congr 1; push_cast; omega

/-- The steps of a circle lie in the octant `x >= y >= 0`, at or below the start radius (R90). -/
theorem circleFrom_bounds {fuel : Nat} {x y err : Int} (hy : 0 ≤ y) :
    ∀ o ∈ circleFrom fuel x y err, 0 ≤ o.y ∧ o.y ≤ o.x ∧ o.x ≤ x := by
  induction fuel generalizing x y err with
  | zero => simp [circleFrom]
  | succ n ih =>
    intro o ho
    simp only [circleFrom] at ho
    split at ho
    · rcases List.mem_cons.1 ho with rfl | h
      · exact ⟨hy, by assumption, le_refl _⟩
      · split at h
        · exact ih (by omega) o h
        · have := ih (x := x - 1) (y := y + 1) (by omega) o h
          omega
    · simp at ho

theorem mem_circPoints {cx cy r : Int} {p : Point} :
    p ∈ circPoints cx cy r ↔ ∃ o ∈ circleSteps r, p ∈ octantPoints cx cy o := by
  simp [circPoints, List.mem_flatMap]

end Sys2Proof.Machine
end

