-- ==== Sys2Proof/Tests/Slice0.lean ====
section
/-! SUPPORT. The author's tests. Expected values are those of spec/30_encoding.md R70 and spec/95_test_vectors.md (the
vector's section or item stands in each comment), or are worked by hand from the rule named. The theorems named
`witness_…` show states and operands that meet the hypotheses of the statements. -/

namespace Sys2Proof.Tests

open Sys2Proof Sys2Proof.Machine

/-! ## Helpers -/

/-- `S128` of 95_test_vectors.md: power-on reset with `W = H = 128`. -/
def s128 : State := { State.reset with w := 128, wSet := true, h := 128, hSet := true }

/-- The 8 x 4 screen of program P2. -/
def s8x4 : State := { State.reset with w := 8, wSet := true, h := 4, hSet := true, curColor := 3 }

/-- `s` with the listed RAM cells. -/
def withRam (s : State) (m : Memory) : State := { s with ram := m }

/-- What `f` sees in the next state. -/
def look {α : Type} (f : State → α) (r : Result) : Option α :=
  match r with
  | .next t => some (f t)
  | .fault _ => none
  | .refused _ => none

/-- RSP, RSP_VALID and BUSY together. -/
def iface (t : State) : RspWord × Bool × Bool := (t.rsp, t.rspValid, t.busy)

/-! ## WellFormed: an ill-formed term for each check -/

theorem test_illformed_cfg : (Instr.cfg true true 65536 0).wellFormed = false ∧
    (Instr.cfg true true 0 65536).wellFormed = false ∧ (Instr.cfg true true 65535 65535).wellFormed = true := by decide

theorem test_illformed_xlate : (Instr.xlate 32768 0).wellFormed = false ∧
    (Instr.xlate 0 (-32769)).wellFormed = false ∧ (Instr.xlate 32767 (-32768)).wellFormed = true := by decide

theorem test_illformed_pget : (Instr.pget (-32769) 0).wellFormed = false ∧
    (Instr.pget 0 32768).wellFormed = false ∧ (Instr.pget (-32768) 32767).wellFormed = true := by decide

theorem test_illformed_pset : (Instr.pset 32768 0 0).wellFormed = false ∧ (Instr.pset 0 32768 0).wellFormed = false ∧
    (Instr.pset 0 0 (-32769)).wellFormed = false ∧ (Instr.pset 0 0 (-32768)).wellFormed = true := by decide

theorem test_illformed_line : (Instr.line 32768 0 0 0 0).wellFormed = false ∧
    (Instr.line 0 32768 0 0 0).wellFormed = false ∧ (Instr.line 0 0 32768 0 0).wellFormed = false ∧
    (Instr.line 0 0 0 32768 0).wellFormed = false ∧ (Instr.line 0 0 0 0 32768).wellFormed = false := by decide

theorem test_illformed_rect : (Instr.rect 32768 0 0 0 0).wellFormed = false ∧
    (Instr.rect 0 32768 0 0 0).wellFormed = false ∧ (Instr.rect 0 0 32768 0 0).wellFormed = false ∧
    (Instr.rect 0 0 0 32768 0).wellFormed = false ∧ (Instr.rect 0 0 0 0 32768).wellFormed = false := by decide

theorem test_illformed_rectfill : (Instr.rectfill 32768 0 0 0 0).wellFormed = false ∧
    (Instr.rectfill 0 32768 0 0 0).wellFormed = false ∧ (Instr.rectfill 0 0 32768 0 0).wellFormed = false ∧
    (Instr.rectfill 0 0 0 32768 0).wellFormed = false ∧ (Instr.rectfill 0 0 0 0 32768).wellFormed = false := by decide

theorem test_illformed_circ : (Instr.circ 32768 0 0 0).wellFormed = false ∧
    (Instr.circ 0 32768 0 0).wellFormed = false ∧ (Instr.circ 0 0 32768 0).wellFormed = false ∧
    (Instr.circ 0 0 0 32768).wellFormed = false := by decide

theorem test_illformed_circfill : (Instr.circfill 32768 0 0 0).wellFormed = false ∧
    (Instr.circfill 0 32768 0 0).wellFormed = false ∧ (Instr.circfill 0 0 32768 0).wellFormed = false ∧
    (Instr.circfill 0 0 0 32768).wellFormed = false := by decide

theorem test_illformed_color_pal : (Instr.color 32768).wellFormed = false ∧ (Instr.pal (-32769)).wellFormed = false := by
  decide

/-! ## Decoding: a word for every constructor, from R57 to R62, R70 and 95_test_vectors.md -/

/-- `CFG 160, _` and `CFG _, 103`: WV is bit 8 and HV is bit 9 (R62, section 2.10 a1 and a2). -/
theorem test_decode_cfg : decodeTableWord 96 0x000000000000000000A00101 = some (.cfg true false 160 0) ∧
    decodeTableWord 96 0x000000000000006700000201 = some (.cfg false true 0 103) := by decide

/-- `XLATE -1, 127` (section 2.1). -/
theorem test_decode_xlate : decodeTableWord 96 0x000000000000007FFFFF0002 = some (.xlate (-1) 127) := by decide

/-- `PGET -32768, 32767` (section 2.2). -/
theorem test_decode_pget : decodeTableWord 96 0x0000000000007FFF80000003 = some (.pget (-32768) 32767) := by decide

/-- `PSET 3, 3, 5` with junk in D and E (R61, section 2.3). -/
theorem test_decode_pset : decodeTableWord 96 0x1234ABCD0005000300030004 = some (.pset 3 3 5) := by decide

theorem test_decode_cls : decodeTableWord 96 0x000000000000000000000005 = some .cls := by decide

/-- `LINE 126, 1, 130, 3, 9` as the sum of R57: OP, FLG, A, B, C, D, E. -/
theorem test_decode_line :
    decodeTableWord 96 (0x06 + 0 * 2 ^ 8 + 126 * 2 ^ 16 + 1 * 2 ^ 32 + 130 * 2 ^ 48 + 3 * 2 ^ 64 + 9 * 2 ^ 80)
      = some (.line 126 1 130 3 9) ∧
    decodeTableWord 96 0x0009000300820001007E0006 = some (.line 126 1 130 3 9) := by decide

/-- `RECT 0, 3, 1, 2, -1` (P2 step 5). -/
theorem test_decode_rect : decodeTableWord 96 0xFFFF00020001000300000007 = some (.rect 0 3 1 2 (-1)) := by decide

/-- `RECTFILL 2, 1, 6, 3, 9` (P2 step 4). -/
theorem test_decode_rectfill : decodeTableWord 96 0x000900030006000100020008 = some (.rectfill 2 1 6 3 9) := by decide

/-- `CIRC 7, 7, 3, 4` (P5 step 2). -/
theorem test_decode_circ : decodeTableWord 96 0x000000040003000700070009 = some (.circ 7 7 3 4) := by decide

/-- `CIRCFILL 64, 64, 10, 8` (R70). -/
theorem test_decode_circfill : decodeTableWord 96 0x00000008000A00400040000A = some (.circfill 64 64 10 8) := by decide

/-- `COLOR -32768` (section 2.8). -/
theorem test_decode_color : decodeTableWord 96 0x00000000000000008000000B = some (.color (-32768)) := by decide

/-- `PAL 15` (section 2.9), written bit by bit: A = 15 above FLG = 0 and OP = 0x0C. -/
theorem test_decode_pal : decodeTableWord 96 0b00000000000011110000000000001100 = some (.pal 15) := by decide

/-- The illegal words of section 2.11. -/
theorem test_decode_illegal :
    ∀ w ∈ [0x0, 0x0D, 0xFF, 0x105, 0x8002, 0x000000000000000100010401, 0x00000000000000010001FF01, 0x102],
      decodeTableWord 96 w = none := by decide

/-- Pseudo-forms of R69: an omitted color is -1, a null dimension is `_`. -/
theorem test_assemble_pseudo : assembleLine "circfill 1, 2, 3".toList = .command (.circfill 1 2 3 (-1)) ∧
    assembleLine "CFG _, 102".toList = .command (.cfg false true 0 102) ∧
    assembleLine "PAL".toList = .malformed ∧ assembleLine " ; note".toList = .nothing := by decide

/-- D32: coordinates are truncated toward zero, a fractional or omitted color is -1. -/
theorem test_script_conversion :
    (ScriptCall.pset (mkRat (-3) 2) (mkRat 7 2) (some (mkRat 5 2))).convert = .pset (-1) 3 (-1) ∧
    (ScriptCall.circ 4 5 6 (some 9)).convert = .circ 4 5 6 9 ∧ (ScriptCall.color none).convert = .color (-1) := by decide

/-! ## One step per command -/

/-- Section 2.10 a2: 160 x 103 > 16384 fails and leaves the height unset. -/
theorem test_cfg_product : look (fun t => (t.rsp, t.w, t.wSet, t.hSet))
    (runCommand 0x000000000000006700000201 { State.reset with w := 160, wSet := true }) =
      some (1, 160, true, false) := by decide

/-- Section 2.10 e1: `CFG 65535, 0` is accepted. -/
theorem test_cfg_zero : look (fun t => (t.rsp, t.w, t.h, t.wSet, t.hSet))
    (runCommand 0x0000000000000000FFFF0301 State.reset) = some (0, 65535, 0, true, true) := by decide

/-- Section 2.1: a negative address, as 32-bit two's complement. -/
theorem test_xlate_negative : look iface (runCommand 0x0000000000007FFF7FFF0002 s128) =
    some (0xFFE0BFFF00000100, true, false) := by decide

/-- Section 2.1, `CFG 3, 3`: pixel (1, 0) is the high nibble of 0x6003. -/
theorem test_xlate_odd_width : look iface (exec (.xlate 1 0) { s128 with w := 3, h := 3 }) =
    some (0x0000600300000100, true, false) := by decide

/-- Section 2.2: the high nibble of the byte below the screen. -/
theorem test_pget_alias : look iface (exec (.pget (-1) 127) (withRam s128 [(0x5FFF, 0xA5)])) =
    some (0x0000000A00000000, true, false) := by decide

/-- Section 2.2: address 0x8000 and address -64 fail, address 0 does not. -/
theorem test_pget_range : look iface (exec (.pget 128 0) s128) = some (1, true, false) ∧
    look iface (exec (.pget 0 512) s128) = some (1, true, false) ∧
    look iface (exec (.pget 0 511) s128) = some (0, true, false) := by decide

/-- Section 2.3, steps 2 and 3: the other nibble is kept. -/
theorem test_pset_keeps_neighbour :
    look (·.ram) (exec (.pset 1 0 7) (withRam s128 [(0x7FC0, 0x03)])) = some [(0x7FC0, 0x73)] ∧
    look (·.ram) (exec (.pset 0 0 12) (withRam s128 [(0x7FC0, 0x73)])) = some [(0x7FC0, 0x7C)] := by decide

/-- R78's example: with CUR_COLOR = 7, `PSET 0, 0, -1` turns 0x30 into 0x37. -/
theorem test_pset_fallback :
    look (·.ram) (exec (.pset 0 0 (-1)) (withRam { s128 with curColor := 7 } [(0x7FC0, 0x30)])) =
      some [(0x7FC0, 0x37)] := by decide

/-- Section 2.4. -/
theorem test_cls : look (fun t => (t.rsp, t.ram))
    (exec .cls (withRam s128 [(0x5FFF, 0xA5), (0x6000, 0xFF), (0x7FFF, 0x11)])) = some (0, [(0x5FFF, 0xA5)]) := by
  decide +kernel

/-- Section 2.5: `LINE -2, -1, 2, 1` under both settings of LINE_TIE. -/
theorem test_line_ties :
    linePoints .gtLt (-2) (-1) 2 1 = [⟨-2, -1⟩, ⟨-1, -1⟩, ⟨0, 0⟩, ⟨1, 0⟩, ⟨2, 1⟩] ∧
    linePoints .geLe (-2) (-1) 2 1 = [⟨-2, -1⟩, ⟨-1, 0⟩, ⟨0, 0⟩, ⟨1, 1⟩, ⟨2, 1⟩] := by decide

/-- P2 step 3 alone: the line's pixels on the 8 x 4 screen. -/
theorem test_line_pixels : look (·.ram) (exec (.line 0 0 7 3 5) s8x4) =
    some [(0x6003, 0x55), (0x6006, 0x55), (0x6009, 0x55), (0x600C, 0x55)] := by decide

/-- P2 step 5: the order of the outline's plots. -/
theorem test_rect_order : rectPoints 0 3 1 2 =
    [⟨0, 2⟩, ⟨0, 3⟩, ⟨1, 2⟩, ⟨1, 3⟩, ⟨0, 2⟩, ⟨1, 2⟩, ⟨0, 3⟩, ⟨1, 3⟩] := by decide

/-- Section 2.6: `RECT -2, -2, 1, 1` lights (0,1), (1,0) and (1,1); worked on the 8 x 4 screen by R72. -/
theorem test_rect_clipped : look (·.ram) (exec (.rect (-2) (-2) 1 1 5) s8x4) =
    some [(0x6008, 0x55), (0x600C, 0x50)] := by decide

/-- P2 step 4 alone: the half-open box. -/
theorem test_rectfill_half_open : look (·.ram) (exec (.rectfill 2 1 6 3 9) s8x4) =
    some [(0x6005, 0x99), (0x6006, 0x99), (0x6009, 0x99), (0x600A, 0x99)] := by decide

/-- Section 2.7: the plot sequence of `CIRC 10, 10, 2`. -/
theorem test_circ_order : circPoints 10 10 2 =
    [⟨12, 10⟩, ⟨10, 12⟩, ⟨10, 12⟩, ⟨8, 10⟩, ⟨8, 10⟩, ⟨10, 8⟩, ⟨10, 8⟩, ⟨12, 10⟩,
     ⟨12, 11⟩, ⟨11, 12⟩, ⟨9, 12⟩, ⟨8, 11⟩, ⟨8, 9⟩, ⟨9, 8⟩, ⟨11, 8⟩, ⟨12, 9⟩] := by decide

/-- R90's example for r = 10. -/
theorem test_circle_steps : circleSteps 10 =
    [⟨10, 0⟩, ⟨10, 1⟩, ⟨10, 2⟩, ⟨10, 3⟩, ⟨9, 4⟩, ⟨9, 5⟩, ⟨8, 6⟩, ⟨7, 7⟩] := by decide

/-- Section 2.7: r = 1 is a plus sign of five pixels; worked on the 8 x 4 screen by R72. -/
theorem test_circfill_plus : look (·.ram) (exec (.circfill 1 1 1 3) s8x4) =
    some [(0x6004, 0x30), (0x6008, 0x33), (0x6009, 0x03), (0x600C, 0x30)] := by decide

/-- Section 2.7: a negative radius writes nothing. -/
theorem test_circfill_negative : look (fun t => (t.rsp, t.ram)) (exec (.circfill 10 10 (-5) 3) s128) = some (0, []) := by
  decide

/-- Section 2.8: 15 is taken, 16 is refused and changes nothing. -/
theorem test_color : look (fun t => (t.rsp, t.curColor)) (exec (.color 15) s128) = some (0, 15) ∧
    look (fun t => (t.rsp, t.curColor)) (exec (.color 16) { s128 with curColor := 15 }) = some (2, 15) := by decide

/-- R98 on a table whose entry k is (k, 16 + k, 32 + k): R is in DATA[23:16]; 16 is out of range. -/
theorem test_pal :
    look (·.rsp) (exec (.pal 15) { s128 with palette := Vector.ofFn fun k =>
      ⟨BitVec.ofNat 8 (k.val + 1), BitVec.ofNat 8 (k.val + 17), BitVec.ofNat 8 (k.val + 33)⟩ }) =
        some 0x000F1F2F00000000 ∧
    look (·.rsp) (exec (.pal 0) s128) = some 0 ∧ look (·.rsp) (exec (.pal 16) s128) = some 1 := by decide

/-- Section 2.11: before CFG, an illegal flag wins over NOT_CONFIGURED. -/
theorem test_check_order : look (·.rsp) (runCommand 0x102 State.reset) = some 4 ∧
    look (·.rsp) (runCommand 0x002 State.reset) = some 3 := by decide

/-! ## The host and reset -/

/-- L1.9: overlapping copies, in both directions. -/
theorem test_host_copy :
    look (·.ram) (step { State.reset with
        ram := [(0, 1), (1, 2), (2, 3), (3, 4), (4, 5), (5, 6)], input := [.copy 2 0 4] }) =
      some [(0, 1), (1, 2), (2, 1), (3, 2), (4, 3), (5, 4)] ∧
    look (·.ram) (step { State.reset with
        ram := [(0, 1), (1, 2), (2, 3), (3, 4), (4, 5), (5, 6)], input := [.copy 0 2 4] }) =
      some [(0, 3), (1, 4), (2, 5), (3, 6), (4, 5), (5, 6)] := by decide

/-- R45 and section 4: -1/2 is truncated to 0; 32768 is out of range. -/
theorem test_host_read :
    look (·.answer) (step { State.reset with ram := [(0, 7)], input := [.read (mkRat (-1) 2)] }) =
      some (some (.byte 7)) ∧
    look (·.answer) (step { State.reset with input := [.read 32768] }) = some (some .outOfRange) := by decide

/-- R46: a write of 0 removes the cell (the canonical form); 256 and -1/2 are out of range. -/
theorem test_host_write :
    look (·.ram) (step { State.reset with ram := [(5, 7)], input := [.write 5 0] }) = some [] ∧
    look (·.answer) (step { State.reset with input := [.write 5 256] }) = some (some .outOfRange) ∧
    look (·.answer) (step { State.reset with input := [.write 5 (mkRat (-1) 2)] }) = some (some .outOfRange) := by
  decide

/-- R50: the last byte of RAM can be filled, one more cannot; a negative length fails. -/
theorem test_host_fill :
    look (·.ram) (step { State.reset with input := [.fill 32767 9 1] }) = some [(32767, 9)] ∧
    look (·.answer) (step { State.reset with input := [.fill 32767 9 2] }) = some (some .outOfRange) ∧
    look (·.answer) (step { State.reset with input := [.fill 0 9 (-1)] }) = some (some .outOfRange) := by decide

/-- L1.8 step 2: `store(0x10, 0x100, 4)` puts the four bytes at ROM 0x10 on, whatever ROM_INIT holds there. -/
theorem test_host_store : look (fun t => [romByte t 0x10, romByte t 0x13]) (step { State.reset with
      ram := [(0x100, 0xDE), (0x101, 0xAD), (0x102, 0xBE), (0x103, 0xEF)], input := [.store 0x10 0x100 4] }) =
    some [0xDE, 0xEF] := by
  have h : ∀ (m : Memory) (a : Nat), 0x10 ≤ a → a < 0x14 →
      Memory.read Config.romInit (Memory.splice Config.romInit m 0x10 [0xDE, 0xAD, 0xBE, 0xEF]) a =
        ([0xDE, 0xAD, 0xBE, 0xEF] : List Byte).getD (a - 0x10) 0 := fun m a h1 h2 => by
    rw [Memory.read_splice, if_pos ⟨h1, by simpa using h2⟩]
  exact congrArg some (congrArg₂ (fun x y => [x, y]) (h [] 0x10 (by decide) (by decide)) (h [] 0x13 (by decide) (by decide)))

/-- R127 and U8: a PSET abandoned before its plot leaves RAM alone, after it keeps the write; neither answers. -/
theorem test_reset_during_pset :
    look (fun t => (t.ram, t.rspValid, t.wSet))
      (step { s128 with input := [.resetDuring 0x00000000000B000600050004 0] }) = some ([], false, false) ∧
    look (fun t => (t.ram.length, t.rspValid, t.wSet))
      (step { s128 with input := [.resetDuring 0x00000000000B000600050004 1] }) = some (1, false, false) := by decide

/-- The host's own question: the first step after reset runs the word it is given. -/
theorem test_withFetchWord : look (fun t => (t.w, t.h, t.rspValid))
    (step (State.reset.withFetchWord 96 0x000000000000008000800301)) = some (128, 128, true) := by decide

/-! ## Witnesses: the hypotheses of each statement, met together -/

/-- `s128` with the list of the host's actions. -/
def asked (a : HostAction) : State := { s128 with input := [a] }

/-- The premises `DimensionsOk s`, `configured s` and `s.busy = false`, of most statements; `s.w = s.h = 128` of the
aliasing table. -/
theorem witness_configured : DimensionsOk s128 ∧ configured s128 = true ∧ s128.busy = false ∧ s128.w = 128 ∧
    s128.h = 128 := by
  refine ⟨?_, by decide, by decide, by decide, by decide⟩
  unfold DimensionsOk; decide

/-- The premises of the NOT_CONFIGURED clauses. -/
theorem witness_unconfigured : DimensionsOk State.reset ∧ configured State.reset = false := by
  refine ⟨?_, by decide⟩
  unfold DimensionsOk; decide

/-- The same on a listed memory in canonical form (EndStateDependsOnlyOnPixelSet). -/
theorem witness_canonical_ram :
    Memory.wf Config.ramInit Config.ramSize (withRam s128 [(0x6000, 1), (0x7FFF, 0x11)]).ram := by decide

/-- EndStateDependsOnlyOnPixelSet: two sequences that differ in order, repetition and off-screen points. -/
theorem witness_same_on_screen_pixels : ∀ p : Point, onScreen s128 p.x p.y = true →
    (p ∈ [(⟨1, 0⟩ : Point), ⟨2, 0⟩, ⟨-1, 0⟩] ↔ p ∈ [(⟨2, 0⟩ : Point), ⟨1, 0⟩, ⟨2, 0⟩]) := by
  intro p h
  cases p with
  | mk x y =>
    simp only [onScreen, decide_eq_true_eq] at h
    have hx : x ≠ -1 := by omega
    simp only [List.mem_cons, Point.mk.injEq, List.not_mem_nil, hx]
    tauto

/-- DecodeOfEncodeIsInstr: operands at both ends of their ranges. -/
theorem witness_DecodeOfEncodeIsInstr : (Instr.line (-32768) 32767 0 (-1) 15).wellFormed = true ∧
    (Instr.cfg false true 65535 0).wellFormed = true := by decide

/-- EncodeOfDecodeKeepsUsedBits: a word whose unused fields are not 0. -/
theorem witness_EncodeOfDecodeKeepsUsedBits : decode 0x1234ABCD0005000300030004 = .ok (.pset 3 3 5) := by decide

theorem witness_UnusedOperandFieldsIgnored : opcodeOf (opField 0x1234ABCD0005000300030004) = some .pset ∧
    opcodeOf (opField 0x00000000000000010001FF01) = some .cfg := by decide

/-- The premise of IllegalWordsEndIllegalCommand. -/
abbrev IsIllegal (c : CmdWord) : Prop :=
  (c.extractLsb' 0 8).toNat = 0 ∨ 0x0D ≤ (c.extractLsb' 0 8).toNat ∨
    ((c.extractLsb' 0 8).toNat = 1 ∧ c.extractLsb' 10 6 ≠ 0) ∨ ((c.extractLsb' 0 8).toNat ≠ 1 ∧ c.extractLsb' 8 8 ≠ 0)

/-- IllegalWordsEndIllegalCommand: each of the four clauses at its boundary, and legal neighbours. -/
theorem witness_IllegalWordsEndIllegalCommand :
    (∀ n ∈ [0x0, 0x0D, 0xFF, 0x0401, 0x8001, 0x0105, 0x8002], IsIllegal (BitVec.ofNat 96 n)) ∧
    ∀ n ∈ [0x0301, 0x000C], ¬ IsIllegal (BitVec.ofNat 96 n) := by decide

theorem witness_OpcodeTableRowsDecode : (Opcode.cfg, (0x01 : CmdWord), (0xFCFF : CmdWord)) ∈
    [(Opcode.cfg, (0x01 : CmdWord), (0xFCFF : CmdWord)), (.pal, 0x0C, 0xFFFF)] := by decide

theorem witness_StepRunsDecodedCommand : (asked (.command 0x05)).busy = false ∧
    (asked (.command 0x05)).input = .command 0x05 :: [] ∧ decode 0x05 = .ok .cls := by decide

/-- StepKeepsStateInvariant: a state of the invariant from which a step goes on. -/
theorem witness_StepKeepsStateInvariant : (asked (.command 0x0007000B)).Inv ∧
    ∃ t, step (asked (.command 0x0007000B)) = .next t :=
  ⟨⟨by decide, by decide, by unfold DimensionsOk; decide, by decide, ⟨by decide, by decide, by decide⟩⟩, _, rfl⟩

/-- RegisterInvariantsBetweenCommands: a step that is no reset, with both dimensions set. -/
theorem witness_RegisterInvariantsBetweenCommands : DimensionsOk (asked .poll) ∧
    (∃ t, step (asked .poll) = .next t) ∧ (∀ rest, (asked .poll).input ≠ .reset :: rest) ∧
    (∀ cmd k rest, (asked .poll).input ≠ .resetDuring cmd k :: rest) ∧ (asked .poll).wSet = true ∧
    (asked .poll).hSet = true :=
  ⟨by unfold DimensionsOk; decide, ⟨_, rfl⟩, fun _ => by simp [asked], fun _ _ _ => by simp [asked], rfl, rfl⟩

theorem witness_CoreResetKeepsRamAndPalette : (asked .reset).input = .reset :: [] := by decide

/-- AbandonedCommandKeepsItsWrites: a drawing command and CLS. -/
theorem witness_AbandonedCommandKeepsItsWrites : decode 0x00000000000B000600050004 = .ok (.pset 5 6 11) ∧
    decode 0x05 = .ok .cls ∧ s128.busy = false := by decide

/-- The same, CLS after one byte: its first byte is reached, the next is not. -/
theorem witness_first_writes_cls : FirstWrites .cls 1 s128 0x6000 .low ∧ ¬ FirstWrites .cls 1 s128 0x6001 .low ∧
    ¬ FirstWrites .cls 1 s128 0x5FFF .high := by
  simp [FirstWrites]

/-- The same, a line after two of its four plots: the second pixel is reached, the third is not. -/
theorem witness_first_writes_line : FirstWrites (.line 0 0 3 0 9) 2 s128 0x7FC0 .high ∧
    ¬ FirstWrites (.line 0 0 3 0 9) 2 s128 0x7FC1 .low := by
  unfold FirstWrites PlotsReach PixelHas
  decide

/-- L1.2 and R127: the abandoned line leaves its first two pixels, and no more. -/
theorem test_reset_during_line : look (·.ram)
    (step { s128 with input := [.resetDuring 0x000900000003000000000006 2] }) = some [(0x7FC0, 0x99)] := by decide

/-- FailingCommandChangesNothing, RetryFailsTheSameWay and StatusCodesByCommand: a next state with each status 1 to 4,
from states whose dimensions are in bounds. -/
theorem witness_failing_commands :
    look (fun t => rspStatus t.rsp) (runCommand 0x0000FFFF00000003 s128) = some 1 ∧
    look (fun t => rspStatus t.rsp) (runCommand 0x0010000B s128) = some 2 ∧
    look (fun t => rspStatus t.rsp) (runCommand 0x02 State.reset) = some 3 ∧
    look (fun t => rspStatus t.rsp) (runCommand 0x00 s128) = some 4 ∧ configured State.reset = false := by decide

/-- UnconfiguredCommandsRaise: either dimension alone unset; and CFG, CLS, COLOR, PAL that end. -/
theorem witness_UnconfiguredCommandsRaise :
    (Instr.circ 0 0 1 1).opcode ∈ [Opcode.xlate, .pget, .pset, .line, .rect, .rectfill, .circ, .circfill] ∧
    { s128 with wSet := false }.wSet = false ∧ { s128 with hSet := false }.hSet = false ∧
    (Instr.color 3).opcode ∈ [Opcode.cfg, .cls, .color, .pal] ∧
    look (·.rsp) (exec (.color 3) State.reset) = some 0 := by decide

/-- PixelIndexFitsThirtyTwoBits at the extreme of R14: W = 65535, H = 0, x = -32768, y = 32767. -/
theorem witness_PixelIndexFitsThirtyTwoBits :
    DimensionsOk { s128 with w := 65535, h := 0 } ∧ configured { s128 with w := 65535, h := 0 } = true ∧
    isS16 (-32768) = true ∧ isS16 32767 = true ∧
    pixelIndex { s128 with w := 65535, h := 0 } (-32768) 32767 = -2147483648 := by
  refine ⟨?_, by decide⟩
  unfold DimensionsOk; decide

/-- OnScreenPixelsLieInScreenRegion, PsetThenPgetReturnsColor, BridgeShowsPalOfPget: the corners are on-screen, their
neighbours outside are not; two pixels with one (address, nibble) pair. -/
theorem witness_on_screen : onScreen s128 0 0 = true ∧ onScreen s128 127 127 = true ∧ onScreen s128 128 0 = false ∧
    onScreen s128 0 (-1) = false ∧
    byteAddress (pixelIndex s128 127 127) = byteAddress (pixelIndex s128 127 127) := by decide

/-- PgetReadsStoredNibble: both clauses at both ends of RAM (addresses 0, 32767, -1 and 32768). -/
theorem witness_PgetReadsStoredNibble :
    let a (x y : Int) := 0x6000 + Int.fdiv (x + ((s128.h.toNat : Int) - y - 1) * (s128.w.toNat : Int)) 2
    a 0 511 = 0 ∧ a 127 0 = 32767 ∧ a (-1) 511 = -1 ∧ a 128 0 = 32768 := by decide

/-- PsetWritesOneNibble: the on-screen clause at two corners, the off-screen clause on each side. -/
theorem witness_PsetWritesOneNibble :
    let on (x y : Int) := 0 ≤ x ∧ x < (s128.w.toNat : Int) ∧ 0 ≤ y ∧ y < (s128.h.toNat : Int)
    on 0 0 ∧ on 127 127 ∧ ¬ on (-1) 0 ∧ ¬ on 128 0 ∧ ¬ on 0 (-1) ∧ ¬ on 0 128 := by decide

/-- PsetThenPgetReturnsColor: a color at each end of its range, and an off-screen PSET that ends. -/
theorem witness_PsetThenPgetReturnsColor : ((0 : Int) ≤ 0 ∧ (0 : Int) ≤ 15) ∧ ((0 : Int) ≤ 15 ∧ (15 : Int) ≤ 15) ∧
    look (·.rsp) (exec (.pset 128 0 5) s128) = some 0 ∧ look (·.rsp) (exec (.pget 0 0) s128) = some 0 := by decide

/-- LineLoopEndsByItself: a loop state away from the end point that meets the tie `e2 = dx` (R82's example). -/
theorem witness_line_step : ¬ ((0 : Int) = 2 ∧ (0 : Int) = 1) ∧ (2 : Int) * 1 = 2 ∧
    linePoints .gtLt 0 0 2 1 = [⟨0, 0⟩, ⟨1, 0⟩, ⟨2, 1⟩] ∧ linePoints .geLe 0 0 2 1 = [⟨0, 0⟩, ⟨1, 1⟩, ⟨2, 1⟩] := by decide

/-- LineLoopEndsByItself: a bound of exactly `max + 1` plots. -/
theorem witness_LineLoopEndsByItself : max ((-32768 : Int) - 32767).natAbs ((3 : Int) - 3).natAbs + 1 ≤ 65536 := by decide

/-- LineWalkProperties: a vertical, a horizontal line and one step of a walk. -/
theorem witness_LineWalkProperties : (linePoints .gtLt 0 0 2 1)[0]? = some ⟨0, 0⟩ ∧
    (linePoints .gtLt 0 0 2 1)[0 + 1]? = some ⟨1, 0⟩ ∧ linePoints .geLe 3 0 3 (-1) = [⟨3, 0⟩, ⟨3, -1⟩] ∧
    linePoints .geLe 3 7 2 7 = [⟨3, 7⟩, ⟨2, 7⟩] := by decide

/-- CircleStepsWalkTheOctant and CircleLoopEndsByItself: the radius at 0, below 0 and above it; at radius 3 a single step
(`err` = -2), a diagonal step (`err` = 1) and the end (`err` = 2). -/
theorem witness_circle_steps : (-1 : Int) < 0 ∧ circleSteps 3 = [⟨3, 0⟩, ⟨3, 1⟩, ⟨2, 2⟩] ∧
    (3 : Int) * (3 - 1) + (0 + 1) ^ 2 - 3 ^ 2 = -2 ∧ (3 : Int) * (3 - 1) + (1 + 1) ^ 2 - 3 ^ 2 = 1 ∧
    (2 : Int) * (2 - 1) + (2 + 1) ^ 2 - 3 ^ 2 = 2 ∧ circleSteps 0 = [⟨0, 0⟩] ∧ (3 : Int) + 1 ≤ ((4 : Nat) : Int) ∧ (-1 : Int) + 1 ≤ ((0 : Nat) : Int) := by decide

/-- CircleOffsetsAreSymmetric and DiskIsSolid: an outline point and two points of one row of the disk. -/
theorem witness_circle_points : (⟨1, 3⟩ : Point) ∈ circPoints 0 0 3 ∧ (⟨-1, 3⟩ : Point) ∈ circfillPoints .gtLt 0 0 3 ∧
    (⟨1, 3⟩ : Point) ∈ circfillPoints .gtLt 0 0 3 ∧ (-1 : Int) ≤ 0 ∧ (0 : Int) ≤ 1 := by decide

/-- ColorSetsCurrentColor and PalReadsPaletteEntry: both sides of both bounds. -/
theorem witness_color_bounds : ((0 : Int) ≤ 0 ∧ (0 : Int) ≤ 15) ∧ ((0 : Int) ≤ 15 ∧ (15 : Int) ≤ 15) ∧ (-1 : Int) < 0 ∧
    (15 : Int) < 16 ∧ (1 : Int) = ((0 : Fin 15).val : Int) + 1 ∧ (15 : Int) = ((14 : Fin 15).val : Int) + 1 := by decide

/-- PalOfPgetAlwaysSucceeds: a PGET that succeeds. -/
theorem witness_PalOfPgetAlwaysSucceeds : look (fun t => rspStatus t.rsp) (exec (.pget 0 0) s128) = some 0 := by decide

/-- CfgSetsEachDimensionOnce: a pair of exactly 16384 pixels, of 16385, and one dimension alone. -/
theorem witness_CfgSetsEachDimensionOnce : (16385 : Nat) ≤ 65535 ∧ 16384 < 16385 * 1 ∧ ¬ 16384 < 16384 * 1 ∧
    ¬ ((State.reset.wSet = true ∨ true = true) ∧ (State.reset.hSet = true ∨ false = true)) := by decide

/-- The statements about what a command may write: a command of each of the two lists that ends, on s128. -/
theorem witness_commands_end : look (·.rsp) (exec (.pset 0 0 1) s128) = some 0 ∧
    look (·.rsp) (exec (.color 1) s128) = some 0 ∧ look (·.rsp) (exec (.cfg true true 1 1) s128) = some 0 ∧
    look (·.rsp) (runCommand 0x02 s128) = some 0x00007FC000000000 := by decide

/-- ValidColorIgnoresCurrentColor: one of its six forms, with a valid color, that ends. -/
theorem witness_ValidColorIgnoresCurrentColor : ((0 : Int) ≤ 3 ∧ (3 : Int) ≤ 15) ∧
    look (·.rsp) (exec (.circfill 1 1 1 3) s8x4) = some 0 := by decide

/-- TruncationIsTowardZero: each sign; the values are 1 and -1. -/
theorem witness_TruncationIsTowardZero : (0 : Rat) ≤ mkRat 3 2 ∧ mkRat (-3) 2 ≤ (0 : Rat) ∧ truncZero (mkRat 3 2) = 1 ∧
    truncZero (mkRat (-3) 2) = -1 := by decide

/-- The host's operations: each clause at the ends of RAM (32767 and 32768), of ROM (17151 and 17152), of a byte and of
an empty or negative length. -/
theorem witness_host_ranges :
    let inRange (a n size : Int) := 0 ≤ a ∧ a + n - 1 < size
    inRange 32767 1 32768 ∧ ¬ inRange 32767 2 32768 ∧ ¬ inRange (-1) 1 32768 ∧ inRange 17151 1 17152 ∧
      ¬ inRange 17151 2 17152 ∧ truncZero 32767 = 32767 ∧ truncZero (mkRat (-1) 2) = 0 ∧ truncZero 0 = 0 ∧
      truncZero (-1) < 0 ∧ ((0 : Rat) ≤ 255 ∧ (255 : Rat) < 256) ∧ (256 : Rat) ≤ 256 ∧
      (255 : Rat).den = 1 ∧ (0 ≤ mkRat 1 2 ∧ mkRat 1 2 < 256) ∧ mkRat (-1) 2 < 0 := by decide

/-- The host's operations: an idle core whose next action is each of them. -/
theorem witness_host_actions : (asked (.read 1)).busy = false ∧ (asked (.read 1)).input = .read 1 :: [] ∧
    (asked (.write 1 2)).input = .write 1 2 :: [] ∧ (asked (.copy 1 2 3)).input = .copy 1 2 3 :: [] ∧
    (asked (.restore 1 2 3)).input = .restore 1 2 3 :: [] ∧ (asked (.store 1 2 3)).input = .store 1 2 3 :: [] ∧
    (asked .storeDefault).input = .storeDefault :: [] ∧ (asked (.fill 1 2 3)).input = .fill 1 2 3 :: [] := by decide

/-- BusyCoreTakesNoCommandAndNoAccess: a busy core with an action to come, and a poll of an idle and of a busy core. -/
theorem witness_BusyCoreTakesNoCommandAndNoAccess : { asked (.read 0) with busy := true }.busy = true ∧
    { asked (.read 0) with busy := true }.input = .read 0 :: [] ∧
    { asked .storeDefault with busy := true }.input = .storeDefault :: [] ∧
    { asked (.resetDuring 5 1) with busy := true }.input = .resetDuring 5 1 :: [] ∧
    (asked .poll).input = .poll :: [] ∧ { asked .poll with busy := true }.input = .poll :: [] := by decide

/-- R32: a poll of an idle core tells RSP, RSP_VALID and BUSY. -/
theorem test_poll_idle : look (fun t => (t.answer, t.rsp))
    (step { asked .poll with rsp := 0x0000000700000000, rspValid := true }) =
      some (some (.interface false true 0x0000000700000000), 0x0000000700000000) := by decide

/-- IdleMachineAlwaysSteps: an idle core with an action of the host, and with none. -/
theorem witness_IdleMachineAlwaysSteps : (asked (.command 0)).busy = false ∧ State.reset.input = [] ∧
    State.reset.busy = false := by decide

end Sys2Proof.Tests
end

section
/-! PROOFS. The host's memory operations (20_memory.md R45 to R50). -/

namespace Sys2Proof.Machine

/-! ## One host access, and its checks -/

/-- An idle core runs the memory operation that is the host's next action (R133). -/
theorem step_of_hostAccess {s : State} {a : HostAction} {rest : List HostAction} {op : State → Result}
    (hb : s.busy = false) (hi : s.input = a :: rest) (ha : ∀ u, perform a u = hostAccess op u) :
    step s = op { s with input := rest } := by
  simp [step, hi, ha, hostAccess, hb]

theorem inRam_iff (a : Int) : inRam a = true ↔ 0 ≤ a ∧ a < 32768 := by simp [inRam]

theorem memRead_ok {a : Int} (s : State) (h : 0 ≤ a ∧ a < 32768) : memRead s a = .ok (ramByte s a.toNat) :=
  if_pos ((inRam_iff a).2 h)

theorem memRead_error {a : Int} (s : State) (h : ¬ (0 ≤ a ∧ a < 32768)) : memRead s a = .error .outOfRange :=
  if_neg (mt (inRam_iff a).1 h)

/-- The check of R38: an address inside RAM and a byte value. -/
theorem memWrite_check_iff (a v : Int) :
    (inRam a && decide (0 ≤ v ∧ v < 256)) = true ↔ (0 ≤ a ∧ a < 32768) ∧ 0 ≤ v ∧ v < 256 := by
  simp [inRam_iff]

theorem memWrite_eq_ok {a v : Int} (s : State) (h : (0 ≤ a ∧ a < 32768) ∧ 0 ≤ v ∧ v < 256) :
    memWrite s a v = .ok (s.setRam a.toNat [BitVec.ofInt 8 v]) :=
  if_pos ((memWrite_check_iff a v).2 h)

theorem memWrite_error {a v : Int} (s : State) (h : ¬ ((0 ≤ a ∧ a < 32768) ∧ 0 ≤ v ∧ v < 256)) :
    memWrite s a v = .error .outOfRange :=
  if_neg (mt (memWrite_check_iff a v).1 h)

/-- Each check of R39, in any order, answers OUT_OF_RANGE. -/
theorem memFill_error {a v n : Int} (s : State)
    (h : n < 0 ∨ (0 < n ∧ (a < 0 ∨ 32768 ≤ a + n - 1)) ∨ ¬ (0 ≤ v ∧ v < 256)) :
    memFill s a v n = .error .outOfRange := by
  unfold memFill
  split
  · rfl
  · split
    · rfl
    · exact if_pos (by simp only [Config.ramSize] at *; omega)

/-- The byte that a write or fill stores for an integer in [0, 256) is that integer. -/
theorem storedByte_toNat {v : Rat} (hr : 0 ≤ v ∧ v < 256) (hd : v.den = 1) :
    ((BitVec.ofInt 8 (hostValue v)).toNat : Rat) = v := by
  calc ((BitVec.ofInt 8 (hostValue v)).toNat : Rat)
      = (((BitVec.ofInt 8 (hostValue v)).toNat : Int) : Rat) := (Int.cast_natCast _).symm
    _ = (hostValue v : Rat) := by rw [byteOfInt_toNat ((hostValue_range v).2 hr)]
    _ = v := hostValue_integer hd

/-- One byte written at an address that the host gave as an integer. -/
theorem read_writeByte {init : Nat → Byte} (m : Memory) {a : Int} (v : Byte) (ha : 0 ≤ a) (b : Nat) :
    Memory.read init (Memory.splice init m a.toNat [v]) b = if (b : Int) = a then v else Memory.read init m b := by
  have haddr : b = a.toNat ↔ (b : Int) = a := by omega
  simp only [Memory.read_splice_one, haddr]

/-- A range that the host gave as integers, filled: an empty one may begin anywhere. -/
theorem read_fillRange {init : Nat → Byte} (m : Memory) {a n : Int} (v : Byte) (h : n ≤ 0 ∨ 0 ≤ a) (b : Nat) :
    Memory.read init (Memory.splice init m a.toNat (byteRun n.toNat v)) b =
      if a ≤ b ∧ (b : Int) < a + n then v else Memory.read init m b := by
  have hrange : (a.toNat ≤ b ∧ b < a.toNat + n.toNat) ↔ a ≤ b ∧ (b : Int) < a + n := by omega
  simp only [Memory.read_fill, hrange]

/-! ## Transfers between the byte spaces -/

/-- The checks of R47 to R49 fail: a negative length, or a range that is not empty and leaves its space. -/
def TransferFails (c d n : Int) (srcSize dstSize : Nat) : Prop :=
  n < 0 ∨ (0 < n ∧ ¬ (0 ≤ c ∧ c + n - 1 < srcSize ∧ 0 ≤ d ∧ d + n - 1 < dstSize))

section
variable {c d n : Int} {srcSize dstSize : Nat}

theorem transfer_guard_iff :
    (decide (0 ≤ n) && rangeOk c n srcSize && rangeOk d n dstSize) = true ↔ ¬ TransferFails c d n srcSize dstSize := by
  simp only [Bool.and_eq_true, decide_eq_true_eq, rangeOk_iff, TransferFails]
  omega

theorem transfer_fails {u v : State} (h : TransferFails c d n srcSize dstSize) :
    (if decide (0 ≤ n) && rangeOk c n srcSize && rangeOk d n dstSize then tellHost .done v
      else tellHost .outOfRange u) = .next { u with answer := some .outOfRange } :=
  if_neg fun hg => transfer_guard_iff.1 hg h

theorem transfer_done {u v : State} (h : ¬ TransferFails c d n srcSize dstSize) :
    (if decide (0 ≤ n) && rangeOk c n srcSize && rangeOk d n dstSize then tellHost .done v
      else tellHost .outOfRange u) = .next { v with answer := some .done } :=
  if_pos (transfer_guard_iff.2 h)

/-- A transfer that passes its checks moves the bytes that the source held before it, within one space or between
two, and keeps every other byte. -/
theorem read_transfer {init init' : Nat → Byte} (m m' : Memory) (h : ¬ TransferFails c d n srcSize dstSize) (b : Nat) :
    Memory.read init (Memory.splice init m d.toNat (Memory.bytes init' m' c.toNat n.toNat)) b =
      if d ≤ b ∧ (b : Int) < d + n then Memory.read init' m' (c + (b - d)).toNat else Memory.read init m b := by
  simp only [TransferFails] at h
  rw [Memory.read_splice, Memory.bytes_length]
  by_cases hb : d ≤ b ∧ (b : Int) < d + n
  · have hsrc : c.toNat + (b - d.toNat) = (c + (b - d)).toNat := by omega
    rw [if_pos (by omega), if_pos hb, Memory.bytes_getD _ _ _ _ (by omega), hsrc]
  · rw [if_neg (by omega), if_neg hb]

end

/-- A store that passes its checks, R49. -/
theorem hostStore_done {dest src len : Rat} {u : State}
    (h : ¬ TransferFails (truncZero src) (truncZero dest) (truncZero len) Config.ramSize Config.romSize) :
    ∃ t, hostStore dest src len u = .next t ∧ t = { u with rom := t.rom, answer := some .done } ∧
      ∀ b : Nat, romByte t b = if truncZero dest ≤ b ∧ (b : Int) < truncZero dest + truncZero len
        then ramByte u (truncZero src + (b - truncZero dest)).toNat else romByte u b :=
  ⟨_, transfer_done h, rfl, read_transfer u.rom u.ram h⟩

theorem truncZero_natCast (n : Nat) : truncZero (n : Rat) = n := by simp [truncZero]

/-- A store with every argument omitted always passes its checks, R49. -/
theorem hostStoreDefault_done (u : State) :
    ∃ t, hostStoreDefault u = .next t ∧ t = { u with rom := t.rom, answer := some .done } ∧
      ∀ b : Nat, romByte t b = if b < 17152 then ramByte u b else romByte u b := by
  have hzero : truncZero 0 = 0 := truncZero_natCast 0
  have hlen : truncZero (Config.romSize : Rat) = 17152 := truncZero_natCast _
  have hfits : ¬ TransferFails (truncZero 0) (truncZero 0) (truncZero (Config.romSize : Rat)) Config.ramSize
      Config.romSize := by rw [hzero, hlen]; simp [TransferFails]
  obtain ⟨t, hrun, hframe, hbytes⟩ := hostStore_done (u := u) hfits
  refine ⟨t, hrun, hframe, fun b => ?_⟩
  have hin : (0 ≤ (b : Int) ∧ (b : Int) < 17152) ↔ b < 17152 := by omega
  simpa only [hzero, hlen, zero_add, sub_zero, Int.toNat_natCast, hin] using hbytes b

/-! ## The obligations -/

/-- Settles O52: the address check of `memRead` decides between the two answers. -/
theorem hostReadAnswersRamByte : Obligations.HostReadAnswersRamByte := by
  intro s addr rest hb hi a
  rw [step_of_hostAccess hb hi fun _ => rfl]
  refine ⟨fun h => ?_, fun h => ?_⟩
  · rw [hostRead, memRead_ok _ h]; rfl
  · rw [hostRead, memRead_error _ h]; rfl

/-- Settles O53: the check on the converted value is the check on the value itself, and the write is one byte long. -/
theorem hostWriteSetsOneByte : Obligations.HostWriteSetsOneByte := by
  intro s addr val rest hb hi a
  rw [step_of_hostAccess hb hi fun _ => rfl, ← and_assoc, ← hostValue_range, hostWrite]
  refine ⟨fun h => ?_, fun h => ?_⟩
  · rw [memWrite_eq_ok _ h]
    exact ⟨_, BitVec.ofInt 8 (hostValue val), rfl, rfl, storedByte_toNat ((hostValue_range val).1 h.2),
      read_writeByte s.ram _ h.1.1⟩
  · rw [memWrite_error _ h]; rfl

/-- Settles O54: a transfer within RAM, whose bytes are all read before the first is written. -/
theorem hostCopyIsThroughABuffer : Obligations.HostCopyIsThroughABuffer := by
  intro s dest src len rest hb hi d c n fails
  rw [step_of_hostAccess hb hi fun _ => rfl]
  exact ⟨transfer_fails, fun h => ⟨_, transfer_done h, rfl, read_transfer s.ram s.ram h⟩⟩

/-- Settles O55: a transfer from ROM to RAM. -/
theorem hostRestoreCopiesRomToRam : Obligations.HostRestoreCopiesRomToRam := by
  intro s dest src len rest hb hi d c n fails
  rw [step_of_hostAccess hb hi fun _ => rfl]
  exact ⟨transfer_fails, fun h => ⟨_, transfer_done h, rfl, read_transfer s.ram s.rom h⟩⟩

/-- Settles O56: a transfer from RAM to ROM; with every argument omitted, of the whole ROM size from 0 to 0. -/
theorem hostStoreCopiesRamToRom : Obligations.HostStoreCopiesRamToRom := by
  refine ⟨fun s dest src len rest hb hi => ?_, fun s rest hb hi => ?_⟩
  · rw [step_of_hostAccess hb hi fun _ => rfl]
    exact ⟨transfer_fails, hostStore_done⟩
  · rw [step_of_hostAccess hb hi fun _ => rfl]
    exact hostStoreDefault_done { s with input := rest }

/-- Settles O57: the checks of `memFill` on the converted value are those on the value itself. -/
theorem hostFillSetsRange : Obligations.HostFillSetsRange := by
  intro s dest val len rest hb hi d n fails
  have hval : (val < 0 ∨ 256 ≤ val) ↔ ¬ (0 ≤ hostValue val ∧ hostValue val < 256) := by
    rw [hostValue_range, not_and_or, not_le, not_lt]
  rw [step_of_hostAccess hb hi fun _ => rfl, hostFill]
  refine ⟨fun h => ?_, fun h => ?_⟩
  · rw [memFill_error _ (by simpa only [fails, hval] using h)]; rfl
  · simp only [fails, hval] at h
    have hbyte : 0 ≤ hostValue val ∧ hostValue val < 256 := by omega
    rw [memFill_ok (by omega) (by simp only [Config.ramSize]; omega) hbyte]
    exact ⟨_, BitVec.ofInt 8 (hostValue val), rfl, rfl, storedByte_toNat ((hostValue_range val).1 hbyte),
      read_fillRange s.ram _ (by omega)⟩

end Sys2Proof.Machine
end

section
/-! PROOFS. Which bits of a command word its meaning reads, and which words are illegal (30_encoding.md R57 to R63). -/

namespace Sys2Proof

/-! ## The used bits of a word (R60, R61) -/

/-- A slice of a masked word, where the mask is all ones, is the slice of the word. -/
theorem extractLsb'_and_of_allOnes {mask : CmdWord} {start len : Nat} (cmd : CmdWord)
    (h : mask.extractLsb' start len = BitVec.allOnes len) :
    (cmd &&& mask).extractLsb' start len = cmd.extractLsb' start len := by
  rw [BitVec.extractLsb'_and, h, BitVec.and_allOnes]

@[simp] theorem opField_and_usedBits (cmd : CmdWord) (o : Opcode) : opField (cmd &&& usedBits o) = opField cmd :=
  extractLsb'_and_of_allOnes cmd (by cases o <;> decide)

@[simp] theorem flgField_and_usedBits (cmd : CmdWord) (o : Opcode) : flgField (cmd &&& usedBits o) = flgField cmd :=
  extractLsb'_and_of_allOnes cmd (by cases o <;> decide)

/-- The mask of an opcode is all ones in each field that holds one of its operands. -/
@[simp] theorem operands_and_usedBits (cmd : CmdWord) (o : Opcode) :
    operands o (cmd &&& usedBits o) = operands o cmd := by
  cases o <;> simp (disch := decide) only [operands, flgField_and_usedBits, aField, bField, cField, dField, eField,
    extractLsb'_and_of_allOnes]

theorem decode_and_usedBits {cmd : CmdWord} {o : Opcode} (h : opcodeOf (opField cmd) = some o) :
    decode (cmd &&& usedBits o) = decode cmd := by
  simp only [decode, opField_and_usedBits, h, flgField_and_usedBits, operands_and_usedBits]

/-! ## The illegal words (R62, R63) -/

theorem opcodeOf_eq_some_iff (op : Byte) (o : Opcode) : opcodeOf op = some o ↔ op = opcodeNumber o := by
  refine ⟨fun h => ?_, fun h => h ▸ opcodeOf_opcodeNumber o⟩
  unfold opcodeOf at h
  split at h <;> cases h <;> exact BitVec.eq_of_toNat_eq ‹_›

theorem opcodeOf_eq_none_iff (op : Byte) : opcodeOf op = none ↔ op.toNat = 0 ∨ 0x0D ≤ op.toNat := by
  unfold opcodeOf
  split <;> simp only [reduceCtorEq, true_iff, false_iff, imp_false] at * <;> omega

theorem opcodeNumber_toNat_eq_one_iff (o : Opcode) : (opcodeNumber o).toNat = 1 ↔ o = .cfg := by
  cases o <;> decide

/-- CFG reserves the upper six bits of FLG. -/
theorem and_reservedFlags_cfg : ∀ flg : Byte, flg &&& reservedFlags .cfg = 0 ↔ flg.extractLsb' 2 6 = 0 := by decide

/-- Every opcode but CFG reserves all of FLG. -/
theorem and_reservedFlags_of_ne_cfg {o : Opcode} (flg : Byte) (h : o ≠ .cfg) : flg &&& reservedFlags o = flg := by
  cases o with
  | cfg => exact absurd rfl h
  | _ => exact BitVec.and_allOnes

theorem extractLsb'_flgField (cmd : CmdWord) : (flgField cmd).extractLsb' 2 6 = cmd.extractLsb' 10 6 := by
  ext i hi
  simp [flgField, show 2 + i < 8 by omega, show 8 + (2 + i) = 10 + i by omega]

/-- When a word with an assigned opcode has a reserved flag set (R62). -/
theorem reservedFlag_set_iff {cmd : CmdWord} {o : Opcode} (h : opcodeOf (opField cmd) = some o) :
    flgField cmd &&& reservedFlags o ≠ 0 ↔
      ((opField cmd).toNat = 1 ∧ cmd.extractLsb' 10 6 ≠ 0) ∨ ((opField cmd).toNat ≠ 1 ∧ flgField cmd ≠ 0) := by
  rw [(opcodeOf_eq_some_iff ..).1 h, Ne, Ne, Ne, opcodeNumber_toNat_eq_one_iff]
  by_cases hcfg : o = .cfg
  · subst hcfg
    rw [and_reservedFlags_cfg, extractLsb'_flgField]
    simp
  · simp [and_reservedFlags_of_ne_cfg _ hcfg, hcfg]

theorem decode_error_iff_of_some {cmd : CmdWord} {o : Opcode} (h : opcodeOf (opField cmd) = some o) :
    (∃ e, decode cmd = .error e) ↔ flgField cmd &&& reservedFlags o ≠ 0 := by
  simp only [decode, h]
  split <;> simpa

/-- The decoder refuses exactly the words that R63 calls illegal. -/
theorem decode_error_iff (cmd : CmdWord) :
    (∃ e, decode cmd = .error e) ↔
      (opField cmd).toNat = 0 ∨ 0x0D ≤ (opField cmd).toNat ∨
        ((opField cmd).toNat = 1 ∧ cmd.extractLsb' 10 6 ≠ 0) ∨ ((opField cmd).toNat ≠ 1 ∧ flgField cmd ≠ 0) := by
  rw [← or_assoc, ← opcodeOf_eq_none_iff]
  cases h : opcodeOf (opField cmd) with
  | none => simp [decode, h]
  | some o => rw [decode_error_iff_of_some h, reservedFlag_set_iff h]; simp

end Sys2Proof

namespace Sys2Proof.Machine

/-- An illegal word ends with code 4 and changes the interface only (R63, R111). -/
theorem runCommand_of_decode_error {cmd : CmdWord} {e : DecodeError} (s : State) (h : decode cmd = .error e) :
    runCommand cmd s = .next { s with rsp := 4, rspValid := true, busy := false } := by
  have hrsp : responseWord .illegalCommand .low 0 = 4 := by decide
  rw [runCommand, h, ← hrsp]
  rfl

/-! ## The obligations -/

/-- Settles O3: a command's meaning depends on the decoded word alone, and the decoder reads only the used bits. -/
theorem unusedOperandFieldsIgnored : Obligations.UnusedOperandFieldsIgnored := by
  intro cmd o s h
  rw [runCommand, runCommand, decode_and_usedBits h]

/-- Settles O4: the decoder's two errors are the four clauses of R63, and either ends the command with code 4. -/
theorem illegalWordsEndIllegalCommand : Obligations.IllegalWordsEndIllegalCommand := by
  intro cmd s op illegal
  have hrefused : (∃ e, decode cmd = .error e) ↔ illegal := decode_error_iff cmd
  refine ⟨hrefused, fun h => ?_⟩
  obtain ⟨e, he⟩ := hrefused.2 h
  exact runCommand_of_decode_error s he

end Sys2Proof.Machine
end

section
/-! PROOFS. The translator and the pixel commands XLATE, PGET and PSET (40_addressing_pixel.md R72 to R78). -/

namespace Sys2Proof.Machine

/-! ## The translator's formula (R72, R11) -/

/-- The model's division and R11's floored division agree, the divisor being positive. -/
theorem byteAddress_eq_fdiv (p : Int) : byteAddress p = 0x6000 + Int.fdiv p 2 := by
  rw [Int.fdiv_eq_ediv_of_nonneg p (by decide)]; rfl

theorem nibbleSel_eq_fmod (p : Int) : nibbleSel p = if Int.fmod p 2 = 0 then .low else .high := by
  rw [Int.fmod_eq_emod_of_nonneg p (by decide)]; rfl

theorem nibbleBit_nibbleSel_toNat (p : Int) : ((nibbleBit (nibbleSel p)).toNat : Int) = Int.fmod p 2 := by
  rw [Int.fmod_eq_emod_of_nonneg p (by decide), nibbleSel]
  rcases Int.emod_two_eq p with h | h <;> rw [h] <;> rfl

/-! ## Nibbles as numbers and as masked bytes (R75, R78) -/

theorem getNib_low_toNat (b : Byte) : (getNib b .low).toNat = b.toNat % 16 := by
  simp [getNib]

theorem getNib_high_toNat (b : Byte) : (getNib b .high).toNat = b.toNat / 16 := by
  have := b.isLt
  simp only [getNib, BitVec.extractLsb'_toNat, Nat.shiftRight_eq_div_pow]
  omega

theorem getNib_and (b d : Byte) (n : NibbleSel) : getNib (b &&& d) n = getNib b n &&& getNib d n := by
  cases n <;> exact BitVec.extractLsb'_and ..

theorem getNib_or (b d : Byte) (n : NibbleSel) : getNib (b ||| d) n = getNib b n ||| getNib d n := by
  cases n <;> exact BitVec.extractLsb'_or ..

/-- R78's update of a low nibble: AND clears it and OR sets it. -/
theorem putNib_low_eq_mask (b : Byte) (c : Nibble) : putNib b .low c = b &&& 0xF0 ||| c.setWidth 8 := by
  have hlow : getNib (c.setWidth 8) .low = c := by revert c; decide
  have hhigh : getNib (c.setWidth 8) .high = 0 := by revert c; decide
  refine byte_ext_of_nibbles fun n => ?_
  rw [getNib_putNib, getNib_or, getNib_and]
  cases n with
  | low => rw [hlow, show getNib 0xF0 .low = 0 by decide]; simp
  | high => rw [hhigh, show getNib 0xF0 .high = BitVec.allOnes 4 by decide, BitVec.and_allOnes]; simp

/-- R78's update of a high nibble. -/
theorem putNib_high_eq_mask (b : Byte) (c : Nibble) : putNib b .high c = b &&& (0x0F : Byte) ||| c.setWidth 8 <<< 4 := by
  have hlow : getNib (c.setWidth 8 <<< 4) .low = 0 := by revert c; decide
  have hhigh : getNib (c.setWidth 8 <<< 4) .high = c := by revert c; decide
  refine byte_ext_of_nibbles fun n => ?_
  rw [getNib_putNib, getNib_or, getNib_and]
  cases n with
  | low => rw [hlow, show getNib 0x0F .low = BitVec.allOnes 4 by decide, BitVec.and_allOnes]; simp
  | high => rw [hhigh, show getNib 0x0F .high = 0 by decide]; simp

/-- A resolved color as a byte (R96). -/
theorem resolve_setWidth (s : State) (v : Int) :
    (resolve s v).setWidth 8 = if 0 ≤ v ∧ v ≤ 15 then BitVec.ofInt 8 v else s.curColor.setWidth 8 := by
  unfold resolve
  split
  · apply BitVec.eq_of_toNat_eq
    simp only [BitVec.toNat_setWidth, BitVec.toNat_ofInt]
    omega
  · rfl

/-- The nibble that PGET reads, by the index's parity (R77). -/
theorem pixelAt_toNat (s : State) (x y : Int) :
    (pixelAt s x y).toNat = if Int.fmod (pixelIndex s x y) 2 = 0
      then (ramByte s (byteAddress (pixelIndex s x y)).toNat).toNat % 16
      else (ramByte s (byteAddress (pixelIndex s x y)).toNat).toNat / 16 := by
  rw [pixelAt, nibbleSel_eq_fmod]
  split
  · exact getNib_low_toNat _
  · exact getNib_high_toNat _

/-- The byte that PSET writes, by the index's parity (R78). -/
theorem putNib_resolve_eq_mask (s : State) (b : Byte) (p col : Int) :
    putNib b (nibbleSel p) (resolve s col) =
      let c : Byte := if 0 ≤ col ∧ col ≤ 15 then BitVec.ofInt 8 col else s.curColor.setWidth 8
      if Int.fmod p 2 = 0 then b &&& 0xF0 ||| c else b &&& (0x0F : Byte) ||| c <<< 4 := by
  rw [← resolve_setWidth, nibbleSel_eq_fmod]
  split
  · exact putNib_low_eq_mask ..
  · exact putNib_high_eq_mask ..

/-! ## What each pixel command does, per case -/

/-- `raise` answers the bare status code, NIB and DATA being 0 (R107). -/
theorem raise_eq (st : Status) (s : State) :
    raise st s = .next { s with rsp := (statusCode st).setWidth 64, rspValid := true, busy := false } := by
  have hrsp : responseWord st .low 0 = (statusCode st).setWidth 64 := by cases st <;> decide
  rw [raise, hrsp]; rfl

section
variable {s : State} {x y : Int}

/-- The guard that every command but CFG, CLS, COLOR and PAL begins with answers code 3 on an unconfigured core. -/
theorem raise_notConfigured_of_unconfigured {r : Result} (hc : configured s = false) :
    (if configured s then r else raise .notConfigured s) =
      .next { s with rsp := 3, rspValid := true, busy := false } := by
  rw [hc, raise_eq]; rfl

theorem exec_xlate_of_configured (hc : configured s = true) :
    exec (.xlate x y) s =
      respond (nibbleSel (pixelIndex s x y)) (BitVec.ofInt 32 (byteAddress (pixelIndex s x y))) s :=
  if_pos hc

theorem exec_pget_inRam (hc : configured s = true)
    (ha : 0 ≤ byteAddress (pixelIndex s x y) ∧ byteAddress (pixelIndex s x y) < 32768) :
    exec (.pget x y) s = respond .low ((pixelAt s x y).setWidth 32) s := by
  simp only [exec, execPget, hc, if_true, memRead_ok s ha, pixelAt]

theorem exec_pget_outOfRam (hc : configured s = true)
    (ha : ¬ (0 ≤ byteAddress (pixelIndex s x y) ∧ byteAddress (pixelIndex s x y) < 32768)) :
    exec (.pget x y) s = raise .outOfRange s := by
  simp only [exec, execPget, hc, if_true, memRead_error s ha]

theorem exec_pset_offScreen {col : Int} (hc : configured s = true) (ho : onScreen s x y = false) :
    exec (.pset x y col) s = respond .low 0 s := by
  simp only [exec, execPset, hc, if_true, drawPoints, plotAll, plot_offScreen (pt := ⟨x, y⟩) _ ho]

theorem exec_pset_onScreen {col : Int} (hd : DimensionsOk s) (hc : configured s = true) (ho : onScreen s x y = true) :
    exec (.pset x y col) s = respond .low 0 (s.setRam (byteAddress (pixelIndex s x y)).toNat
      [putNib (ramByte s (byteAddress (pixelIndex s x y)).toNat) (nibbleSel (pixelIndex s x y)) (resolve s col)]) := by
  simp only [exec, execPset, hc, if_true, drawPoints, plotAll, plot_onScreen (pt := ⟨x, y⟩) _ ho (hd hc), cellOf]

end

/-! ## The obligations -/

/-- Settles O21: the model's address and nibble are the floored quotient and remainder of the index. -/
theorem xlateAnswersAddressAndNibble : Obligations.XlateAnswersAddressAndNibble := by
  refine fun s x y => ⟨raise_notConfigured_of_unconfigured, fun hc => ?_⟩
  refine ⟨_, exec_xlate_of_configured hc, rspStatus_responseWord .., rspZero_responseWord .., ?_, ?_⟩
  · rw [rspData_responseWord, byteAddress_eq_fdiv]; rfl
  · rw [rspNib_responseWord]; exact nibbleBit_nibbleSel_toNat _

/-- Settles O24: the address check of `memRead` decides between the two answers. -/
theorem pgetReadsStoredNibble : Obligations.PgetReadsStoredNibble := by
  refine fun s x y => ⟨raise_notConfigured_of_unconfigured, fun hc => ?_⟩
  intro p a
  have ha : a = byteAddress (pixelIndex s x y) := (byteAddress_eq_fdiv _).symm
  rw [ha]
  refine ⟨fun h0 h1 => ⟨_, exec_pget_inRam hc ⟨h0, h1⟩, rspStatus_responseWord .., rspNib_responseWord ..,
    rspZero_responseWord .., ?_⟩, fun h => ?_⟩
  · have hfits : (pixelAt s x y).toNat < 2 ^ 32 := (pixelAt s x y).isLt.trans (by decide)
    rw [rspData_responseWord, BitVec.toNat_setWidth, Nat.mod_eq_of_lt hfits]
    exact pixelAt_toNat s x y
  · rw [exec_pget_outOfRam hc (by omega), raise_eq]; rfl

/-- Settles O25: PSET is one `plot`, which writes one byte on-screen and nothing off-screen. -/
theorem psetWritesOneNibble : Obligations.PsetWritesOneNibble := by
  refine fun s x y col hd => ⟨raise_notConfigured_of_unconfigured, fun hc => ?_⟩
  intro c p a
  have ha : a = (byteAddress (pixelIndex s x y)).toNat := congrArg Int.toNat (byteAddress_eq_fdiv _).symm
  have hon : (0 ≤ x ∧ x < s.w.toNat ∧ 0 ≤ y ∧ y < s.h.toNat) ↔ onScreen s x y = true := (onScreen_iff s x y).symm
  rw [hon, ha]
  by_cases ho : onScreen s x y = true
  · have hrange := byteAddress_range ho (hd hc)
    refine ⟨_, exec_pset_onScreen hd hc ho, rfl, fun _ => ⟨by omega, by omega, ?_, fun b hb => ?_⟩, (absurd ho ·)⟩
    · exact (Memory.read_splice_one ..).trans ((if_pos rfl).trans (putNib_resolve_eq_mask ..))
    · exact (Memory.read_splice_one ..).trans (if_neg hb)
  · exact ⟨_, exec_pset_offScreen hc (by simpa using ho), rfl, (absurd · ho), fun _ _ => rfl⟩

end Sys2Proof.Machine
end

section
/-! PROOFS. What the rasterizer's commands paint: CLS, LINE, RECT, RECTFILL, CIRC and CIRCFILL (41_raster.md R84 to
R92). -/

namespace Sys2Proof.Machine

/-! ## Every drawing command at once (R84) -/

/-- What all drawing commands share: the guard, then their plots, which paint the set that the on-screen ones make up. -/
theorem drawing_paints {s : State} {col : Int} {pts : List Point} {S : Int → Int → Prop} (hd : DimensionsOk s)
    (hS : ∀ x y, onScreen s x y = true → (⟨x, y⟩ ∈ pts ↔ S x y)) :
    (configured s = false → (if configured s then drawPoints col pts s else raise .notConfigured s) =
      .next { s with rsp := 3, rspValid := true, busy := false }) ∧
    (configured s = true → ∃ t, (if configured s then drawPoints col pts s else raise .notConfigured s) = .next t ∧
      PaintsExactly s t (resolve s col) S) := by
  refine ⟨raise_notConfigured_of_unconfigured, fun hc => ?_⟩
  rw [if_pos hc]
  exact drawPoints_paints hd hc hS

/-! ## The plots of each figure -/

/-- The loop of a horizontal walk, `n` columns before its end: `err` stays `dx`, so it steps in x and never in y, under
either tie (R82). -/
theorem mem_lineFrom_horizontal {k : LineWalk} (hdy : k.dy = 0) {n : Nat} (hn : n ≤ k.dx) {x : Int}
    (hx : (k.sx = 1 ∧ k.x1 = x + n) ∨ (k.sx = -1 ∧ k.x1 = x - n)) {u v : Int} :
    ⟨u, v⟩ ∈ lineFrom k (n + 1) x k.y1 k.dx ↔ v = k.y1 ∧ min x k.x1 ≤ u ∧ u ≤ max x k.x1 := by
  induction n generalizing x with
  | zero =>
    have hend : x = k.x1 ∧ k.y1 = k.y1 := by omega
    rw [lineFrom, if_pos hend, List.mem_singleton, Point.mk.injEq]
    omega
  | succ n ih =>
    have hend : ¬ (x = k.x1 ∧ k.y1 = k.y1) := by omega
    have hstepX : stepX k.tie (2 * k.dx) 0 = true := by
      cases k.tie <;> simp only [stepX, decide_eq_true_eq] <;> omega
    have hstepY : stepY k.tie (2 * k.dx) k.dx = false := by
      cases k.tie <;> simp only [stepY, decide_eq_false_iff_not] <;> omega
    have hrest := ih (x := x + k.sx) (by omega) (by omega)
    rw [lineFrom, if_neg hend, List.mem_cons, Point.mk.injEq]
    simp only [hdy, hstepX, hstepY, if_true, Bool.false_eq_true, if_false, sub_zero, add_zero, hrest]
    omega

/-- A horizontal line plots every point between its ends, under either tie (R83). -/
theorem mem_linePoints_horizontal (tie : LineTie) (x0 x1 y : Int) {u v : Int} :
    ⟨u, v⟩ ∈ linePoints tie x0 y x1 y ↔ v = y ∧ min x0 x1 ≤ u ∧ u ≤ max x0 x1 := by
  have hspan : lineSpan x0 y x1 y = (x1 - x0).natAbs := by simp [lineSpan]
  have herr : (((x1 - x0).natAbs : Int) - ((y - y).natAbs : Int)) = (x1 - x0).natAbs := by simp
  rw [linePoints, hspan, herr]
  refine mem_lineFrom_horizontal (by simp) le_rfl ?_
  simp only [stepSign]
  split <;> omega

theorem circleSteps_octant {r : Int} {o : Point} (h : o ∈ circleSteps r) : 0 ≤ o.y ∧ o.y ≤ o.x := by
  obtain ⟨hy, hyx, -⟩ := circleFrom_bounds le_rfl o h
  exact ⟨hy, hyx⟩

/-- The octant points of an offset are its reflections about the centre in both axes and in the diagonal (R91). -/
theorem mem_octantPoints {cx cy x y : Int} {o : Point} (ho : 0 ≤ o.y ∧ o.y ≤ o.x) :
    ⟨x, y⟩ ∈ octantPoints cx cy o ↔
      (|x - cx| = o.x ∧ |y - cy| = o.y) ∨ (|x - cx| = o.y ∧ |y - cy| = o.x) := by
  have hx : 0 ≤ o.x := ho.1.trans ho.2
  simp only [octantPoints, List.mem_cons, List.not_mem_nil, or_false, Point.mk.injEq, abs_eq ho.1, abs_eq hx]
  omega

/-- The spans of an offset: rows at distance `o.y` reach as far as `o.x`, and those at distance `o.x` as far as `o.y`
(R92). -/
theorem mem_spanPoints (tie : LineTie) {cx cy x y : Int} {o : Point} (ho : 0 ≤ o.y ∧ o.y ≤ o.x) :
    ⟨x, y⟩ ∈ spanPoints tie cx cy o ↔
      (|x - cx| ≤ o.x ∧ |y - cy| = o.y) ∨ (|x - cx| ≤ o.y ∧ |y - cy| = o.x) := by
  have hx : 0 ≤ o.x := ho.1.trans ho.2
  simp only [spanPoints, List.mem_append, mem_linePoints_horizontal, abs_le, abs_eq ho.1, abs_eq hx]
  omega

/-! ## The obligations -/

/-- Settles O28: CLS is one fill of the screen region with zeros. -/
theorem clsZeroesScreenRegion : Obligations.ClsZeroesScreenRegion := by
  refine fun s => ⟨_, execCls_eq s, rfl, fun a => ?_⟩
  have hregion : (0x6000 ≤ a ∧ a ≤ 0x7FFF) ↔ (Config.screenBase ≤ a ∧ a < Config.screenBase + Config.screenBytes) := by
    simp only [Config.screenBase, Config.screenBytes]; omega
  simp only [hregion]
  exact Memory.read_fill ..

/-- Settles O29: LINE's plots are its walk. -/
theorem linePaintsItsWalk : Obligations.LinePaintsItsWalk :=
  fun _ _ _ _ _ _ hd => drawing_paints hd fun _ _ _ => Iff.rfl

/-- Settles O33: the two edge loops cover the outline of the normalised box. -/
theorem rectPaintsOutline : Obligations.RectPaintsOutline := by
  refine fun s x0 y0 x1 y1 col hd => drawing_paints hd fun x y _ => ?_
  rw [rectPoints, mem_outlinePoints]
  dsimp only
  omega

/-- Settles O34: on the screen, the clipped box is the half-open box. -/
theorem rectfillPaintsHalfOpenBox : Obligations.RectfillPaintsHalfOpenBox := by
  refine fun s x0 y0 x1 y1 col hd => drawing_paints hd fun x y hon => ?_
  have hscreen := (onScreen_iff s x y).1 hon
  rw [rectfillPoints, mem_boxPoints]
  dsimp only
  omega

/-- Settles O39: the octant points of every step, as distances from the centre. -/
theorem circPaintsOctantPoints : Obligations.CircPaintsOctantPoints := by
  refine fun s cx cy r col hd => drawing_paints hd fun x y _ => ?_
  rw [mem_circPoints]
  exact exists_congr fun o => and_congr_right fun ho => mem_octantPoints (circleSteps_octant ho)

/-- Settles O40: the spans of every step are horizontal lines, so the tie does not matter. -/
theorem circfillPaintsSpans : Obligations.CircfillPaintsSpans := by
  refine fun s cx cy r col hd => drawing_paints hd fun x y _ => ?_
  rw [circfillPoints, List.mem_flatMap]
  exact exists_congr fun o => and_congr_right fun ho => mem_spanPoints s.lineTie (circleSteps_octant ho)

end Sys2Proof.Machine
end

section
/-! PROOFS. The commands COLOR and PAL (42_color_palette.md R97 to R99). -/

namespace Sys2Proof.Machine

/-! ## Indices and packed entries -/

/-- A color index in range survives its nibble. -/
theorem nibbleOfInt_toNat {v : Int} (h : 0 ≤ v ∧ v ≤ 15) : ((BitVec.ofInt 4 v).toNat : Int) = v := by
  rw [BitVec.toNat_ofInt]
  omega

/-- A concatenation as a number: the left part above the right one's bits. -/
theorem toNat_append_eq_add {m n : Nat} (x : BitVec m) (y : BitVec n) :
    (x ++ y).toNat = x.toNat * 2 ^ n + y.toNat := by
  rw [BitVec.toNat_append, ← Nat.shiftLeft_add_eq_or_of_lt y.isLt, Nat.shiftLeft_eq]

/-- `{R, G, B}` as one number, R in the most significant byte (R98). -/
theorem packRgb_toNat (e : Rgb) : (packRgb e).toNat = e.r.toNat * 65536 + e.g.toNat * 256 + e.b.toNat := by
  have hzero : (0 : BitVec 8).toNat = 0 := rfl
  simp only [packRgb, toNat_append_eq_add, hzero]
  omega

/-- Entry 0 is black (R99). -/
theorem paletteEntry_zero (s : State) : paletteEntry s 0 = ⟨0, 0, 0⟩ := rfl

/-- Entries 1 to 15 are the table's (R99). -/
theorem paletteEntry_succ (s : State) {i : Nibble} (k : Fin 15) (h : i.toNat = k.val + 1) :
    paletteEntry s i = s.palette[k] := by
  have hpos : 0 < i.toNat := by omega
  have hk : i.toNat - 1 = k.val := by omega
  simp only [paletteEntry, dif_pos hpos, hk, Fin.getElem_fin]

/-! ## What COLOR and PAL do, per case -/

section
variable {idx : Int} (s : State)

theorem exec_color_inRange (h : 0 ≤ idx ∧ idx ≤ 15) :
    exec (.color idx) s = respond .low 0 { s with curColor := BitVec.ofInt 4 idx } :=
  if_pos h

theorem exec_color_outOfRange (h : idx < 0 ∨ 15 < idx) : exec (.color idx) s = raise .invalidColorIndex s :=
  if_neg (by omega)

theorem exec_pal_inRange (h : 0 ≤ idx ∧ idx ≤ 15) :
    exec (.pal idx) s = respond .low (packRgb (paletteEntry s (BitVec.ofInt 4 idx))) s :=
  if_pos h

theorem exec_pal_outOfRange (h : idx < 0 ∨ 15 < idx) : exec (.pal idx) s = raise .outOfRange s :=
  if_neg (by omega)

end

/-- A success without a result is the zero response. -/
theorem respond_zero (s : State) : respond .low 0 s = .next { s with rsp := 0, rspValid := true, busy := false } := by
  have hrsp : responseWord .ok .low 0 = 0 := by decide
  rw [respond, hrsp]; rfl

/-! ## The obligations -/

/-- Settles O43: the index check decides between the one write and the error. -/
theorem colorSetsCurrentColor : Obligations.ColorSetsCurrentColor := by
  refine fun s idx => ⟨fun h => ⟨BitVec.ofInt 4 idx, nibbleOfInt_toNat h, ?_⟩, fun h => ?_⟩
  · rw [exec_color_inRange s h, respond_zero]
  · rw [exec_color_outOfRange s h, raise_eq]; rfl

/-- Settles O44: the index check decides between the error and the entry, which packs to 0 when it is black. -/
theorem palReadsPaletteEntry : Obligations.PalReadsPaletteEntry := by
  refine fun s idx => ⟨fun h => ?_, fun k hk => ?_, fun h => ?_⟩
  · have hzero : BitVec.ofInt 4 0 = 0 := by decide
    have hblack : packRgb ⟨0, 0, 0⟩ = 0 := by decide
    rw [exec_pal_inRange s (by omega), h, hzero, paletteEntry_zero, hblack, respond_zero]
  · have hrange : 0 ≤ idx ∧ idx ≤ 15 := by omega
    have hindex := nibbleOfInt_toNat hrange
    have hentry := paletteEntry_succ s (i := BitVec.ofInt 4 idx) k (by omega)
    refine ⟨_, exec_pal_inRange s hrange, rspStatus_responseWord .., rspNib_responseWord .., rspZero_responseWord .., ?_⟩
    rw [rspData_responseWord, hentry, packRgb_toNat]
  · rw [exec_pal_outOfRange s h, raise_eq]; rfl

end Sys2Proof.Machine
end

section
/-! PROOFS. CFG's set-once dimensions and the commands that need them (43_config.md R101 to R104). -/

namespace Sys2Proof.Machine

/-! ## What CFG does, per case -/

/-- The pair that CFG would give has both dimensions and more than 16384 pixels (R102). -/
def CfgPairTooLarge (s : State) (wv hv : Bool) (w h : Nat) : Prop :=
  ((s.wSet = true ∨ wv = true) ∧ (s.hSet = true ∨ hv = true)) ∧
    16384 < (if s.wSet = true then s.w.toNat else w) * (if s.hSet = true then s.h.toNat else h)

/-- The state with each given dimension taken that was unset (R101, R102). -/
def State.takeDims (s : State) (wv hv : Bool) (w h : Nat) : State :=
  { s with
    w := if !s.wSet && wv then BitVec.ofNat 16 w else s.w
    wSet := s.wSet || wv
    h := if !s.hSet && hv then BitVec.ofNat 16 h else s.h
    hSet := s.hSet || hv }

section
variable {s : State} {wv hv : Bool} {w h : Nat}

/-- CFG's own test is that the pair is too large. -/
theorem cfg_guard_iff :
    ((s.wSet || wv) && (s.hSet || hv) && decide (Config.maxPixels <
      (if s.wSet then s.w.toNat else w) * (if s.hSet then s.h.toNat else h))) = true ↔
      CfgPairTooLarge s wv hv w h := by
  simp only [Bool.and_eq_true, Bool.or_eq_true, decide_eq_true_eq, CfgPairTooLarge]

theorem exec_cfg_tooLarge (hp : CfgPairTooLarge s wv hv w h) : exec (.cfg wv hv w h) s = raise .outOfRange s :=
  if_pos (cfg_guard_iff.2 hp)

theorem exec_cfg_fits (hp : ¬ CfgPairTooLarge s wv hv w h) :
    exec (.cfg wv hv w h) s = respond .low 0 (s.takeDims wv hv w h) :=
  if_neg (mt cfg_guard_iff.1 hp)

end

/-- One dimension of CFG: it takes the operand when it is given and unset, and else keeps what it holds (R101). -/
theorem dimension_taken_or_kept {set given : Bool} {v : Nat} (old : BitVec 16) (hv : v ≤ 65535) :
    (set = false ∧ given = true →
      (if !set && given then BitVec.ofNat 16 v else old).toNat = v ∧ (set || given) = true) ∧
    (¬ (set = false ∧ given = true) →
      (if !set && given then BitVec.ofNat 16 v else old) = old ∧ (set || given) = set) := by
  have hfits : (BitVec.ofNat 16 v).toNat = v := by rw [BitVec.toNat_ofNat]; omega
  cases set <;> cases given <;> simp [hfits]

/-! ## The status a command ends with -/

theorem raise_status {st : Status} {s t : State} (h : raise st s = .next t) : rspStatus t.rsp = statusCode st := by
  cases h
  exact rspStatus_responseWord ..

theorem respond_status {nib : NibbleSel} {data : BitVec 32} {s t : State} (h : respond nib data s = .next t) :
    rspStatus t.rsp = statusCode .ok := by
  cases h
  exact rspStatus_responseWord ..

/-! ## Commands before configuration (R104, R110) -/

theorem configured_eq_false_iff (s : State) : configured s = false ↔ s.wSet = false ∨ s.hSet = false :=
  Bool.and_eq_false_iff

/-- Each of the eight commands begins with the same guard. -/
theorem exec_of_unconfigured {i : Instr} {s : State}
    (hi : i.opcode ∈ [Opcode.xlate, .pget, .pset, .line, .rect, .rectfill, .circ, .circfill])
    (hc : configured s = false) : exec i s = .next { s with rsp := 3, rspValid := true, busy := false } := by
  cases i
  case cfg | cls | color | pal => simp [Instr.opcode] at hi
  case xlate | pget | pset | line | rect | rectfill | circ | circfill =>
    exact raise_notConfigured_of_unconfigured hc

/-- CFG ends OK or with OUT_OF_RANGE, CLS with OK, COLOR with OK or INVALID_COLOR_INDEX, PAL with OK or
OUT_OF_RANGE. -/
theorem exec_status_ne_notConfigured {i : Instr} {s t : State} (hi : i.opcode ∈ [Opcode.cfg, .cls, .color, .pal])
    (ht : exec i s = .next t) : rspStatus t.rsp ≠ statusCode .notConfigured := by
  cases i
  case xlate | pget | pset | line | rect | rectfill | circ | circfill => simp [Instr.opcode] at hi
  case cfg wv hv w h =>
    by_cases hp : CfgPairTooLarge s wv hv w h
    · rw [exec_cfg_tooLarge hp] at ht
      rw [raise_status ht]; decide
    · rw [exec_cfg_fits hp] at ht
      rw [respond_status ht]; decide
  case cls =>
    rw [exec, execCls_eq] at ht
    rw [respond_status ht]; decide
  case color idx =>
    by_cases hidx : 0 ≤ idx ∧ idx ≤ 15
    · rw [exec_color_inRange s hidx] at ht
      rw [respond_status ht]; decide
    · rw [exec_color_outOfRange s (by omega)] at ht
      rw [raise_status ht]; decide
  case pal idx =>
    by_cases hidx : 0 ≤ idx ∧ idx ≤ 15
    · rw [exec_pal_inRange s hidx] at ht
      rw [respond_status ht]; decide
    · rw [exec_pal_outOfRange s (by omega)] at ht
      rw [raise_status ht]; decide

/-! ## The obligations -/

/-- Settles O19: the guard of the eight commands, and the statuses of the four that have no guard. -/
theorem unconfiguredCommandsRaise : Obligations.UnconfiguredCommandsRaise :=
  ⟨fun _ s hi hunset => exec_of_unconfigured hi ((configured_eq_false_iff s).2 hunset),
    fun _ _ _ hi ht => exec_status_ne_notConfigured hi ht⟩

/-- Settles O46: the pair's size decides between the error and the two dimensions, each taken or kept by itself. -/
theorem cfgSetsEachDimensionOnce : Obligations.CfgSetsEachDimensionOnce := by
  refine fun s wv hv w h hw hh => ⟨fun hp => ?_, fun hp => ?_⟩
  · rw [exec_cfg_tooLarge hp, raise_eq]; rfl
  · obtain ⟨htakenW, hkeptW⟩ := dimension_taken_or_kept s.w hw
    obtain ⟨htakenH, hkeptH⟩ := dimension_taken_or_kept s.h hh
    have hexec := exec_cfg_fits hp
    rw [respond_zero] at hexec
    exact ⟨_, hexec, rfl, htakenW, hkeptW, htakenH, hkeptH⟩

end Sys2Proof.Machine
end

section
/-! PROOFS. The status codes of a command (60_exceptions.md R106) and the Presentation Bridge's buffer (R125). -/

namespace Sys2Proof.Machine

/-! ## Which commands end with which status (R106) -/

/-- R106's table: the commands that can end with a status. Only an illegal word ends with ILLEGAL_COMMAND. -/
def commandsEndingWith : Status → List Opcode
  | .ok => allOpcodes
  | .outOfRange => [.pget, .pal, .cfg]
  | .invalidColorIndex => [.color]
  | .notConfigured => [.xlate, .pget, .pset, .line, .rect, .rectfill, .circ, .circfill]
  | .illegalCommand => []

/-- A response carries a status that R106's table gives its command. -/
def StatusInTable (o : Opcode) (r : RspWord) : Prop := ∃ st, rspStatus r = statusCode st ∧ o ∈ commandsEndingWith st

theorem mem_commandsEndingWith_ok (o : Opcode) : o ∈ commandsEndingWith .ok := by cases o <;> decide

theorem statusCode_injective {st st' : Status} (h : statusCode st = statusCode st') : st = st' := by
  revert h; cases st <;> cases st' <;> decide

theorem statusCode_le_four (st : Status) : (statusCode st).toNat ≤ 4 := by cases st <;> decide

section
variable {o : Opcode} {s t : State}

theorem statusInTable_of_raise {st : Status} (ho : o ∈ commandsEndingWith st) (ht : raise st s = .next t) :
    StatusInTable o t.rsp :=
  ⟨st, raise_status ht, ho⟩

theorem statusInTable_of_respond {nib : NibbleSel} {data : BitVec 32} (ht : respond nib data s = .next t) :
    StatusInTable o t.rsp :=
  ⟨.ok, respond_status ht, mem_commandsEndingWith_ok o⟩

/-- The guard of R104 adds NOT_CONFIGURED to the statuses of the command behind it. -/
theorem statusInTable_of_guard {r : Result} (ho : o ∈ commandsEndingWith .notConfigured)
    (ht : (if configured s then r else raise .notConfigured s) = .next t)
    (hr : configured s = true → r = .next t → StatusInTable o t.rsp) : StatusInTable o t.rsp := by
  split at ht
  next hc => exact hr hc ht
  next => exact statusInTable_of_raise ho ht

/-- A drawing command within the product bound: the guard, and then plots that all succeed. -/
theorem statusInTable_of_drawing {col : Int} {pts : List Point} (hd : DimensionsOk s)
    (ho : o ∈ commandsEndingWith .notConfigured)
    (ht : (if configured s then drawPoints col pts s else raise .notConfigured s) = .next t) :
    StatusInTable o t.rsp := by
  refine statusInTable_of_guard ho ht fun hc hdraw => ?_
  obtain ⟨m, heq, -⟩ := drawPoints_eq col pts (hd hc)
  exact statusInTable_of_respond (heq.symm.trans hdraw)

end

/-- Every command ends with a status that R106's table gives it. -/
theorem exec_statusInTable {i : Instr} {s t : State} (hd : DimensionsOk s) (ht : exec i s = .next t) :
    StatusInTable i.opcode t.rsp := by
  cases i with
  | cfg wv hv w h =>
    by_cases hp : CfgPairTooLarge s wv hv w h
    · exact statusInTable_of_raise (o := .cfg) (by decide) ((exec_cfg_tooLarge hp).symm.trans ht)
    · exact statusInTable_of_respond ((exec_cfg_fits hp).symm.trans ht)
  | xlate x y =>
    exact statusInTable_of_guard (o := .xlate) (by decide) ht fun _ h => statusInTable_of_respond h
  | pget x y =>
    refine statusInTable_of_guard (o := .pget) (by decide) ht fun hc _ => ?_
    by_cases ha : 0 ≤ byteAddress (pixelIndex s x y) ∧ byteAddress (pixelIndex s x y) < 32768
    · exact statusInTable_of_respond ((exec_pget_inRam hc ha).symm.trans ht)
    · exact statusInTable_of_raise (o := .pget) (by decide) ((exec_pget_outOfRam hc ha).symm.trans ht)
  | cls => exact statusInTable_of_respond ((execCls_eq s).symm.trans ht)
  | color idx =>
    by_cases hidx : 0 ≤ idx ∧ idx ≤ 15
    · exact statusInTable_of_respond ((exec_color_inRange s hidx).symm.trans ht)
    · exact statusInTable_of_raise (o := .color) (by decide) ((exec_color_outOfRange s (by omega)).symm.trans ht)
  | pal idx =>
    by_cases hidx : 0 ≤ idx ∧ idx ≤ 15
    · exact statusInTable_of_respond ((exec_pal_inRange s hidx).symm.trans ht)
    · exact statusInTable_of_raise (o := .pal) (by decide) ((exec_pal_outOfRange s (by omega)).symm.trans ht)
  | pset | line | rect | rectfill | circ | circfill =>
    exact statusInTable_of_drawing hd (by simp [commandsEndingWith, Instr.opcode]) ht

/-! ## The bridge's buffer (R125) -/

/-- A concatenation of pieces of equal length, by piece and place in the piece. -/
theorem getElem?_flatMap_of_length_eq {α β : Type} {f : α → List β} {n : Nat} (hf : ∀ a, (f a).length = n)
    (l : List α) (i : Nat) {k : Nat} (hk : k < n) :
    (l.flatMap f)[i * n + k]? = l[i]?.bind fun a => (f a)[k]? := by
  induction l generalizing i with
  | nil => rfl
  | cons a l ih =>
    rw [List.flatMap_cons]
    cases i with
    | zero => rw [List.getElem?_append_left (by rw [hf]; omega), Nat.zero_mul, Nat.zero_add]; rfl
    | succ i =>
      have hskip : (i + 1) * n + k - n = i * n + k := by rw [Nat.succ_mul]; omega
      rw [List.getElem?_append_right (by rw [hf, Nat.succ_mul]; omega), hf, hskip, ih, List.getElem?_cons_succ]

theorem expandRgb_length {s : State} (hc : configured s = true) :
    (expandRgb s).length = s.w.toNat * s.h.toNat * 3 := by
  simp [expandRgb, hc, List.length_flatMap, rgbBytes]

/-- Byte `k` of pixel index `p` in the buffer. -/
theorem expandRgb_getElem? {s : State} (hc : configured s = true) {p k : Nat} (hp : p < s.w.toNat * s.h.toNat)
    (hk : k < 3) : (expandRgb s)[p * 3 + k]? = (rgbBytes (paletteEntry s (colorAtIndex s p)))[k]? := by
  have hlen : ∀ p, (rgbBytes (paletteEntry s (colorAtIndex s p))).length = 3 := fun _ => rfl
  rw [expandRgb, if_pos hc, getElem?_flatMap_of_length_eq hlen _ _ hk, List.getElem?_range hp, Option.bind_some]

/-- The color that the bridge takes is the pixel's, its index not being negative. -/
theorem colorAtIndex_pixelIndex {s : State} {x y : Int} (h : 0 ≤ pixelIndex s x y) :
    colorAtIndex s (pixelIndex s x y).toNat = pixelAt s x y := by
  rw [colorAtIndex, Int.toNat_of_nonneg h, pixelAt]

theorem pixelIndex_toNat_lt {s : State} {x y : Int} (h : onScreen s x y = true) :
    (pixelIndex s x y).toNat < s.w.toNat * s.h.toNat := by
  obtain ⟨hpos, hlt⟩ := pixelIndex_range h
  rw [State.width, State.height, ← Nat.cast_mul] at hlt
  omega

/-- The three bytes that PAL packs, taken out of DATA again (R67). -/
theorem packRgb_fields (e : Rgb) :
    (packRgb e).extractLsb' 16 8 = e.r ∧ (packRgb e).extractLsb' 8 8 = e.g ∧ (packRgb e).extractLsb' 0 8 = e.b := by
  have hr := e.r.isLt
  have hg := e.g.isLt
  have hb := e.b.isLt
  refine ⟨?_, ?_, ?_⟩ <;> apply BitVec.eq_of_toNat_eq <;>
    simp only [BitVec.extractLsb'_toNat, packRgb_toNat, Nat.shiftRight_eq_div_pow] <;> omega

/-- PAL on the color that PGET returned reads that color's entry: 32 bits hold every index (R100). -/
theorem exec_pal_of_nibble (s : State) (c : Nibble) :
    exec (.pal (c.setWidth 32).toNat) s = respond .low (packRgb (paletteEntry s c)) s := by
  have hval : (c.setWidth 32).toNat = c.toNat := by
    have := c.isLt
    rw [BitVec.toNat_setWidth]; omega
  rw [hval, exec_pal_inRange s (by have := c.isLt; omega), BitVec.ofInt_natCast, BitVec.ofNat_toNat, BitVec.setWidth_eq]

/-! ## The obligations -/

/-- Settles O18: an illegal word ends with code 4, and a legal one with a status that R106's table gives its command. -/
theorem statusCodesByCommand : Obligations.StatusCodesByCommand := by
  intro cmd s t hd ht
  cases hdec : decode cmd with
  | error e =>
    rw [runCommand_of_decode_error s hdec] at ht
    cases ht
    have hstatus : rspStatus 4#64 = 4 := by decide
    simp [hstatus]
  | ok i =>
    rw [runCommand, hdec] at ht
    obtain ⟨st, hst, hmem⟩ := exec_statusInTable (s := s.accept) hd ht
    have hends : ∀ {st'}, rspStatus t.rsp = statusCode st' → i.opcode ∈ commandsEndingWith st' :=
      fun h => statusCode_injective (hst.symm.trans h) ▸ hmem
    refine ⟨hst ▸ statusCode_le_four st, fun h => ⟨i, rfl, hends (st' := .outOfRange) h⟩,
      fun h => ⟨i, rfl, List.mem_singleton.1 (hends (st' := .invalidColorIndex) h)⟩,
      fun h => ⟨i, rfl, hends (st' := .notConfigured) h⟩,
      fun h => absurd (hends (st' := .illegalCommand) h) List.not_mem_nil, fun ⟨e, he⟩ => by cases he⟩

/-- Settles O60: PGET and PAL succeed on an on-screen pixel, and the buffer holds PAL's entry at the pixel's index. -/
theorem bridgeShowsPalOfPget : Obligations.BridgeShowsPalOfPget := by
  refine fun s hd hc => ⟨expandRgb_length hc, fun x y hon => ?_⟩
  have haddr := byteAddress_range hon (hd hc)
  have hbyte {k : Nat} (hk : k < 3) := expandRgb_getElem? hc (pixelIndex_toNat_lt hon) hk
  rw [colorAtIndex_pixelIndex (pixelIndex_range hon).1] at hbyte
  obtain ⟨hred, hgreen, hblue⟩ := packRgb_fields (paletteEntry s (pixelAt s x y))
  refine ⟨_, s.endCommand (responseWord .ok .low (packRgb (paletteEntry s (pixelAt s x y)))),
    exec_pget_inRam hc (by omega), ?_, rspStatus_responseWord .., rspStatus_responseWord .., ?_⟩
  · rw [endCommand_rsp, rspData_responseWord]
    exact exec_pal_of_nibble s (pixelAt s x y)
  · simp only [endCommand_rsp, rspData_responseWord, hred, hgreen, hblue]
    exact ⟨hbyte (k := 0) (by decide), hbyte (k := 1) (by decide), hbyte (k := 2) (by decide)⟩

end Sys2Proof.Machine
end

section
/-! PROOFS. CFG on a configured core (70_reset_and_hazards.md R134). -/

namespace Sys2Proof.Machine

theorem configured_iff {s : State} : configured s = true ↔ s.wSet = true ∧ s.hSet = true :=
  Bool.and_eq_true_iff

section
variable {s : State} (hc : configured s = true) (wv hv : Bool) (w h : Nat)
include hc

/-- On a configured core the pair that CFG tests is the stored one, which keeps the product bound (R23). -/
theorem not_cfgPairTooLarge_of_configured (hd : DimensionsOk s) : ¬ CfgPairTooLarge s wv hv w h := by
  obtain ⟨hwSet, hhSet⟩ := configured_iff.1 hc
  rintro ⟨-, hlarge⟩
  rw [if_pos hwSet, if_pos hhSet] at hlarge
  exact absurd (hd hc) (Nat.not_le.2 hlarge)

/-- A configured core has no dimension left to take (R101). -/
theorem takeDims_of_configured : s.takeDims wv hv w h = s := by
  obtain ⟨hwSet, hhSet⟩ := configured_iff.1 hc
  cases s
  cases hwSet
  cases hhSet
  rfl

end

/-! ## The obligations -/

/-- Settles O16: the stored pair passes CFG's test, no operand is taken, and the response is OK. -/
theorem configuredCfgChangesNothing : Obligations.ConfiguredCfgChangesNothing := by
  intro s wv hv w h hd hc
  rw [exec_cfg_fits (not_cfgPairTooLarge_of_configured hc wv hv w h hd), takeDims_of_configured hc, respond_zero]

end Sys2Proof.Machine
end

section
/-! PROOFS. Decoder and encoder against each other, against the opcode table, and on the worked examples
(30_encoding.md R57 to R62, R68 to R70). -/

namespace Sys2Proof

/-! ## Decoding an encoded instruction (R58, R60) -/

/-- The encoder never makes an illegal word, whatever the instruction. -/
theorem encode_legal (i : Instr) : Laws.LegalEncoding.Statement i := by
  cases i with
  | cfg wv hv w h => exact Laws.LegalEncoding.cfg wv hv w h
  | xlate x y => exact Laws.LegalEncoding.xlate x y
  | pget x y => exact Laws.LegalEncoding.pget x y
  | pset x y col => exact Laws.LegalEncoding.pset x y col
  | cls => exact Laws.LegalEncoding.cls
  | line x0 y0 x1 y1 col => exact Laws.LegalEncoding.line x0 y0 x1 y1 col
  | rect x0 y0 x1 y1 col => exact Laws.LegalEncoding.rect x0 y0 x1 y1 col
  | rectfill x0 y0 x1 y1 col => exact Laws.LegalEncoding.rectfill x0 y0 x1 y1 col
  | circ cx cy r col => exact Laws.LegalEncoding.circ cx cy r col
  | circfill cx cy r col => exact Laws.LegalEncoding.circfill cx cy r col
  | color idx => exact Laws.LegalEncoding.color idx
  | pal idx => exact Laws.LegalEncoding.pal idx

/-- When the decoder reads the operands of opcode `o` from a word. -/
theorem decode_of_legal {cmd : CmdWord} {o : Opcode} (hop : opField cmd = opcodeNumber o)
    (hflg : flgField cmd &&& reservedFlags o = 0) : decode cmd = .ok (operands o cmd) := by
  simp only [decode, hop, opcodeOf_opcodeNumber, hflg, if_true]

theorem decode_encode (i : Instr) : decode (encode i) = .ok (operands i.opcode (encode i)) :=
  decode_of_legal (encode_legal i).1 (encode_legal i).2

/-- The operands that an encoded well-formed instruction carries are its own (R58). -/
theorem operands_encode {i : Instr} (h : i.wellFormed = true) : operands i.opcode (encode i) = i := by
  cases i with
  | _ =>
    simp only [Instr.wellFormed, Bool.and_eq_true] at h
    simp [Instr.opcode, operands, encode, sext16_sField, zext16_uField, h]

/-! ## Encoding a decoded instruction (R58, R60, R61) -/

@[simp] theorem opcode_operands (o : Opcode) (cmd : CmdWord) : (operands o cmd).opcode = o := by cases o <;> rfl

@[simp] theorem isS16_sext16 (f : Field) : isS16 (sext16 f) = true := by
  have := f.isLt
  refine decide_eq_true ?_
  unfold sext16
  split <;> omega

@[simp] theorem isU16_zext16 (f : Field) : isU16 (zext16 f) = true := decide_eq_true (Nat.le_of_lt_succ f.isLt)

@[simp] theorem sField_sext16 (f : Field) : sField (sext16 f) = f := by
  have := f.isLt
  apply BitVec.eq_of_toNat_eq
  simp only [sField, sext16, BitVec.toNat_ofInt]
  split <;> omega

@[simp] theorem uField_zext16 (f : Field) : uField (zext16 f) = f := BitVec.ofNat_toNat ..

theorem wellFormed_operands (o : Opcode) (cmd : CmdWord) : (operands o cmd).wellFormed = true := by
  cases o <;> simp [operands, Instr.wellFormed]

/-- CFG's two flags put together again, its reserved flags being 0 (R62). -/
theorem cfgFlags_of_reserved_zero :
    ∀ flg : Byte, flg &&& reservedFlags .cfg = 0 → cfgFlags (flg.getLsbD 0) (flg.getLsbD 1) = flg := by decide

theorem getLsbD_extractLsb'_sub {n : Nat} (x : BitVec n) {start len i : Nat} (hlo : start ≤ i)
    (hhi : i < start + len) : (x.extractLsb' start len).getLsbD (i - start) = x.getLsbD i := by
  have hin : i - start < len := by omega
  rw [BitVec.getLsbD_extractLsb', decide_eq_true hin, Bool.true_and, Nat.add_sub_of_le hlo]

/-- A word is its seven fields put together (R57). -/
theorem assembleWord_fields (cmd : CmdWord) :
    assembleWord (opField cmd) (flgField cmd) (aField cmd) (bField cmd) (cField cmd) (dField cmd) (eField cmd) = cmd := by
  refine BitVec.eq_of_getLsbD_eq fun i hi => ?_
  rw [getLsbD_assembleWord]
  repeat' split
  all_goals exact getLsbD_extractLsb'_sub cmd (by omega) (by omega)

/-- A slice of a masked word, where the mask is zero, is zero. -/
theorem extractLsb'_and_of_zero {mask : CmdWord} {start len : Nat} (cmd : CmdWord)
    (h : mask.extractLsb' start len = 0) : (cmd &&& mask).extractLsb' start len = 0 := by
  rw [BitVec.extractLsb'_and, h]; exact BitVec.and_zero

/-- The mask of an opcode is all ones or zero in each field: what is encoded is the masked word (R60, R61). -/
theorem encode_operands {cmd : CmdWord} {o : Opcode} (hop : opField cmd = opcodeNumber o)
    (hflg : flgField cmd &&& reservedFlags o = 0) : encode (operands o cmd) = cmd &&& usedBits o := by
  rw [← assembleWord_fields (cmd &&& usedBits o), opField_and_usedBits, flgField_and_usedBits, hop]
  cases o with
  | cfg =>
    simp (disch := decide) only [encode, operands, Instr.opcode, cfgFlags_of_reserved_zero _ hflg, uField_zext16,
      aField, bField, cField, dField, eField, extractLsb'_and_of_allOnes, extractLsb'_and_of_zero]
  | _ =>
    rw [and_reservedFlags_of_ne_cfg _ (by decide)] at hflg
    simp (disch := decide) only [encode, operands, Instr.opcode, hflg, sField_sext16,
      aField, bField, cField, dField, eField, extractLsb'_and_of_allOnes, extractLsb'_and_of_zero]

/-- What a word that decodes is: its opcode field holds the command's number, no reserved flag is set, and the operands
are the fields' (R71). -/
theorem decode_ok_iff {cmd : CmdWord} {i : Instr} :
    decode cmd = .ok i ↔
      opField cmd = opcodeNumber i.opcode ∧ flgField cmd &&& reservedFlags i.opcode = 0 ∧ i = operands i.opcode cmd := by
  refine ⟨fun h => ?_, fun ⟨hop, hflg, hi⟩ => hi ▸ decode_of_legal hop hflg⟩
  unfold decode at h
  split at h
  · cases h
  next o ho =>
    split at h
    next hflg => cases h; simpa using ⟨(opcodeOf_eq_some_iff ..).1 ho, hflg⟩
    · cases h

/-! ## The opcode table (R59, R62) -/

/-- A row of the opcode table: the command, its `match` and its `mask`, on OP and FLG only. -/
def tableRow (o : Opcode) : Opcode × CmdWord × CmdWord :=
  (o, assembleWord (opcodeNumber o) 0 0 0 0 0 0, assembleWord 0xFF (reservedFlags o) 0 0 0 0 0)

/-- A word decodes to a command of opcode `o` when OP and the reserved flags are right, whatever its other fields. -/
theorem decodesTo_iff (cmd : CmdWord) (o : Opcode) :
    (∃ i, decode cmd = .ok i ∧ i.opcode = o) ↔ opField cmd = opcodeNumber o ∧ flgField cmd &&& reservedFlags o = 0 := by
  constructor
  · rintro ⟨i, hi, rfl⟩
    obtain ⟨hop, hflg, -⟩ := decode_ok_iff.1 hi
    exact ⟨hop, hflg⟩
  · rintro ⟨hop, hflg⟩
    exact ⟨_, decode_of_legal hop hflg, opcode_operands ..⟩

/-- Words are combined by AND field by field. -/
theorem and_eq_assembleWord (x y : CmdWord) :
    x &&& y = assembleWord (opField x &&& opField y) (flgField x &&& flgField y) (aField x &&& aField y)
      (bField x &&& bField y) (cField x &&& cField y) (dField x &&& dField y) (eField x &&& eField y) := by
  rw [← assembleWord_fields (x &&& y)]
  simp only [opField, flgField, aField, bField, cField, dField, eField, BitVec.extractLsb'_and]

theorem matches_tableRow_iff (cmd : CmdWord) (o : Opcode) :
    cmd &&& (tableRow o).2.2 = (tableRow o).2.1 ↔
      opField cmd = opcodeNumber o ∧ flgField cmd &&& reservedFlags o = 0 := by
  have hmask : cmd &&& (tableRow o).2.2 = assembleWord (opField cmd) (flgField cmd &&& reservedFlags o) 0 0 0 0 0 := by
    have hones : opField cmd &&& 255#8 = opField cmd := BitVec.and_allOnes
    rw [and_eq_assembleWord]
    simp [tableRow, hones]
  rw [hmask]
  refine ⟨fun h => ⟨?_, ?_⟩, fun ⟨hop, hflg⟩ => by rw [hop, hflg]; rfl⟩
  · simpa [tableRow] using congrArg opField h
  · simpa [tableRow] using congrArg flgField h

/-! ## Assembly text (R68, R69) -/

/-- The word of one line of text, if it is a command. -/
def assembledWord (line : List Char) : Option CmdWord :=
  match Machine.assembleLine line with
  | .command i => some (encode i)
  | _ => none

theorem exists_command_of_assembledWord {line : List Char} {w : CmdWord} (h : assembledWord line = some w) :
    ∃ i, Machine.assembleLine line = .command i ∧ encode i = w := by
  unfold assembledWord at h
  split at h
  next i hi => exact ⟨i, hi, Option.some.inj h⟩
  · cases h

/-! ## The obligations -/

/-- Settles O1: an encoded instruction is legal, and each of its fields gives its operand back. -/
theorem decodeOfEncodeIsInstr : Obligations.DecodeOfEncodeIsInstr := by
  intro i h
  rw [decode_encode, operands_encode h]

/-- Settles O2: every field's operand is in range, and encodes to the field again. -/
theorem encodeOfDecodeKeepsUsedBits : Obligations.EncodeOfDecodeKeepsUsedBits := by
  intro cmd i h
  obtain ⟨hop, hflg, hi⟩ := decode_ok_iff.1 h
  have hwf := wellFormed_operands i.opcode cmd
  have hencode := encode_operands hop hflg
  rw [← hi] at hwf hencode
  exact ⟨hwf, hencode⟩

/-- Settles O5: a row's mask keeps OP and the reserved flags, and its match is the row's number. -/
theorem opcodeTableRowsDecode : Obligations.OpcodeTableRowsDecode := by
  have hrow : ∀ row ∈ Machine.allOpcodes.map tableRow, ∀ cmd : CmdWord,
      (∃ i, decode cmd = .ok i ∧ i.opcode = row.1) ↔ cmd &&& row.2.2 = row.2.1 := by
    rw [List.forall_mem_map]
    exact fun o _ cmd => (decodesTo_iff cmd o).trans (matches_tableRow_iff cmd o).symm
  exact hrow

/-- Settles O6: each word is decoded and each instruction is encoded. -/
theorem workedEncodingsDecode : Obligations.WorkedEncodingsDecode := by
  unfold Obligations.WorkedEncodingsDecode
  decide

/-- Settles O7: each line is assembled. -/
theorem assemblyTextGivesWorkedWords : Obligations.AssemblyTextGivesWorkedWords := by
  refine fun row hrow => exists_command_of_assembledWord ?_
  revert row
  decide

end Sys2Proof
end

section
/-! PROOFS. What one command writes, field by field (10_state.md R20 to R33, 20_memory.md R40, 60_exceptions.md R107),
and the commands' responses (30_encoding.md R66). -/

namespace Sys2Proof.Machine

/-! ## The drawing commands as one (R84) -/

/-- The color operand and the plots of a drawing command; CLS draws no plots. -/
def plotSequence (s : State) : Instr → Option (Int × List Point)
  | .pset x y col => some (col, [⟨x, y⟩])
  | .line x0 y0 x1 y1 col => some (col, linePoints s.lineTie x0 y0 x1 y1)
  | .rect x0 y0 x1 y1 col => some (col, rectPoints x0 y0 x1 y1)
  | .rectfill x0 y0 x1 y1 col => some (col, rectfillPoints s.width s.height x0 y0 x1 y1)
  | .circ cx cy r col => some (col, circPoints cx cy r)
  | .circfill cx cy r col => some (col, circfillPoints s.lineTie cx cy r)
  | _ => none

section
variable {i : Instr} {s : State} {col : Int} {pts : List Point} (h : plotSequence s i = some (col, pts))
include h

theorem exec_of_plotSequence :
    exec i s = if configured s then drawPoints col pts s else raise .notConfigured s := by
  cases i <;> cases h <;> rfl

theorem abandonedRam_of_plotSequence (k : Nat) : abandonedRam i k s = ramAfterPlots col pts k s := by
  cases i <;> cases h <;> rfl

theorem firstWrites_of_plotSequence (k a : Nat) (n : NibbleSel) :
    FirstWrites i k s a n = PlotsReach s (pts.take k) a n := by
  cases i <;> cases h <;> rfl

end

/-! ## The cases of a command -/

/-- Everything one command can do to the state, by the command. -/
inductive ExecCase (s : State) : Instr → State → Prop where
  /-- It raised a status. -/
  | raised (i : Instr) (st : Status) : ExecCase s i (s.endCommand (responseWord st .low 0))
  /-- It answered and wrote nothing: XLATE, PGET, PAL. -/
  | answered (i : Instr) (nib : NibbleSel) (data : BitVec 32) : ExecCase s i (s.endCommand (responseWord .ok nib data))
  /-- CFG took the dimensions that were unset. -/
  | tookDims (wv hv : Bool) (w h : Nat) (fits : ¬ CfgPairTooLarge s wv hv w h) :
      ExecCase s (.cfg wv hv w h) ((s.takeDims wv hv w h).endCommand (responseWord .ok .low 0))
  /-- COLOR took its index. -/
  | tookColor (idx : Int) :
      ExecCase s (.color idx) (State.endCommand { s with curColor := BitVec.ofInt 4 idx } (responseWord .ok .low 0))
  /-- CLS cleared the screen region. -/
  | cleared : ExecCase s .cls
      ((s.setRam Config.screenBase (byteRun Config.screenBytes 0)).endCommand (responseWord .ok .low 0))
  /-- A drawing command made its plots. -/
  | drew (i : Instr) (col : Int) (pts : List Point) (u : State) (seq : plotSequence s i = some (col, pts))
      (conf : configured s = true) (plots : plotAll (resolve s col) pts s = .ok u) :
      ExecCase s i (u.endCommand (responseWord .ok .low 0))

section
variable {s t : State} {i : Instr}

theorem execCase_of_raise {st : Status} (h : raise st s = .next t) : ExecCase s i t := by
  cases h; exact .raised i st

theorem execCase_of_respond {nib : NibbleSel} {data : BitVec 32} (h : respond nib data s = .next t) :
    ExecCase s i t := by
  cases h; exact .answered i nib data

theorem execCase_of_plotSequence {col : Int} {pts : List Point} (seq : plotSequence s i = some (col, pts))
    (h : exec i s = .next t) : ExecCase s i t := by
  rw [exec_of_plotSequence seq] at h
  split at h
  next hc =>
    unfold drawPoints at h
    split at h
    next u hu => cases h; exact .drew i col pts u seq hc hu
    next => exact execCase_of_raise h
  next => exact execCase_of_raise h

/-- The inversion lemma of exec by command. -/
theorem exec_cases (h : exec i s = .next t) : ExecCase s i t := by
  cases i with
  | cfg wv hv w h' =>
    by_cases hp : CfgPairTooLarge s wv hv w h'
    · exact execCase_of_raise ((exec_cfg_tooLarge hp).symm.trans h)
    · rw [exec_cfg_fits hp] at h
      cases h; exact .tookDims wv hv w h' hp
  | xlate x y =>
    simp only [exec, execXlate] at h
    split at h
    · exact execCase_of_respond h
    · exact execCase_of_raise h
  | pget x y =>
    simp only [exec, execPget] at h
    split at h
    · split at h
      · exact execCase_of_respond h
      · exact execCase_of_raise h
    · exact execCase_of_raise h
  | cls =>
    rw [exec, execCls_eq] at h
    cases h; exact .cleared
  | color idx =>
    simp only [exec, execColor] at h
    split at h
    · cases h; exact .tookColor idx
    · exact execCase_of_raise h
  | pal idx =>
    simp only [exec, execPal] at h
    split at h
    · exact execCase_of_respond h
    · exact execCase_of_raise h
  | pset | line | rect | rectfill | circ | circfill => exact execCase_of_plotSequence rfl h

/-! ## What a command keeps -/

/-- Only COLOR writes CUR_COLOR (R20). -/
theorem exec_curColor (h : exec i s = .next t) (hi : i.opcode ≠ .color) : t.curColor = s.curColor := by
  cases exec_cases h with
  | tookColor => exact absurd rfl hi
  | drew _ _ _ u _ _ plots => rw [plotAll_ok plots]; rfl
  | raised | answered | tookDims | cleared => rfl

/-- Only CFG writes the dimensions (R21, R22). -/
theorem exec_dims (h : exec i s = .next t) (hi : i.opcode ≠ .cfg) :
    t.w = s.w ∧ t.wSet = s.wSet ∧ t.h = s.h ∧ t.hSet = s.hSet := by
  cases exec_cases h with
  | tookDims => exact absurd rfl hi
  | drew _ _ _ u _ _ plots => rw [plotAll_ok plots]; exact ⟨rfl, rfl, rfl, rfl⟩
  | raised | answered | tookColor | cleared => exact ⟨rfl, rfl, rfl, rfl⟩

/-- No command writes what belongs to the host (R24, R26, R31). -/
theorem exec_keepsHost (h : exec i s = .next t) : KeepsHost s t := by
  obtain ⟨u, st, nib, data, heq, -, hkeeps⟩ := exec_ends i s
  cases heq.symm.trans h
  exact ⟨hkeeps.palette, hkeeps.lineTie, hkeeps.rom, hkeeps.input, hkeeps.answer⟩

/-- The commands that draw nothing leave RAM alone. -/
theorem exec_ram_of_not_drawing (h : exec i s = .next t) (hi : i.opcode ∈ [Opcode.cfg, .xlate, .pget, .color, .pal]) :
    t.ram = s.ram := by
  cases exec_cases h with
  | cleared => simp [Instr.opcode] at hi
  | drew i _ _ _ seq _ _ => cases i <;> simp [Instr.opcode, plotSequence] at hi seq
  | raised | answered | tookDims | tookColor => rfl

/-- Every command keeps the canonical form of RAM. -/
theorem exec_ramKept (h : exec i s = .next t) : RamKept s t.ram := by
  cases exec_cases h with
  | cleared => exact fun hw => Memory.splice_wf hw (.inr (by rw [byteRun_length]; decide))
  | drew _ _ _ u _ _ plots =>
    have hkept : RamKept s u.ram := plotAll_ramKept plots
    exact hkept
  | raised | answered | tookDims | tookColor => exact id

/-- A dimension that is set after CFG is at most the one that CFG tested: 16 bits hold it or less. -/
theorem dimension_le_tested {set given : Bool} (old : BitVec 16) (v : Nat) (hset : (set || given) = true) :
    (if !set && given then BitVec.ofNat 16 v else old).toNat ≤ if set = true then old.toNat else v := by
  cases set with
  | true => exact le_rfl
  | false =>
    obtain rfl : given = true := hset
    exact Nat.mod_le v _

/-- The dimensions that CFG takes keep the product bound (R23, R103). -/
theorem dimensionsOk_takeDims {wv hv : Bool} {w h : Nat} (fits : ¬ CfgPairTooLarge s wv hv w h) :
    DimensionsOk (s.takeDims wv hv w h) := by
  intro hc
  obtain ⟨hw, hh⟩ := configured_iff.1 hc
  have hproduct := Nat.mul_le_mul (dimension_le_tested s.w w hw) (dimension_le_tested s.h h hh)
  have hset := And.intro ((Bool.or_eq_true ..).mp hw) ((Bool.or_eq_true ..).mp hh)
  exact hproduct.trans (Nat.le_of_not_lt fun hlarge => fits ⟨hset, hlarge⟩)

theorem exec_dimensionsOk (hd : DimensionsOk s) (h : exec i s = .next t) : DimensionsOk t := by
  cases exec_cases h with
  | tookDims wv hv w h' fits => exact dimensionsOk_takeDims fits
  | drew _ _ _ u _ _ plots => rw [plotAll_ok plots]; exact hd
  | raised | answered | tookColor | cleared => exact hd

/-- A dimension that is set stays as it is (R33). -/
theorem exec_keeps_set_dims (h : exec i s = .next t) :
    (s.wSet = true → t.wSet = true ∧ t.w = s.w) ∧ (s.hSet = true → t.hSet = true ∧ t.h = s.h) := by
  by_cases hi : i.opcode = .cfg
  · cases exec_cases h with
    | raised | answered => exact ⟨fun hw => ⟨hw, rfl⟩, fun hh => ⟨hh, rfl⟩⟩
    | tookDims => exact ⟨fun hw => by simp [State.takeDims, hw], fun hh => by simp [State.takeDims, hh]⟩
    | tookColor | cleared => cases hi
    | drew i _ _ _ seq _ _ => cases i <;> simp [Instr.opcode, plotSequence] at hi seq
  · obtain ⟨hw, hwSet, hh, hhSet⟩ := exec_dims h hi
    exact ⟨fun hs => ⟨hwSet.trans hs, hw⟩, fun hs => ⟨hhSet.trans hs, hh⟩⟩

/-- Under the product bound a command writes RAM in the screen region only (R40, R137). -/
theorem exec_ramByte_outside (hd : DimensionsOk s) (h : exec i s = .next t) {a : Nat}
    (ha : a < 0x6000 ∨ 0x8000 ≤ a) : ramByte t a = ramByte s a := by
  cases exec_cases h with
  | cleared =>
    refine (Memory.read_fill ..).trans (if_neg ?_)
    simp only [Config.screenBase, Config.screenBytes]; omega
  | drew i col pts u seq conf plots =>
    obtain ⟨v, hv, hpaints⟩ := drawPoints_paints (col := col) (pts := pts) hd conf fun _ _ _ => Iff.rfl
    rw [drawPoints, plots] at hv
    cases hv
    refine hpaints.bytes a fun x y hon _ => ?_
    have := byteAddress_range hon (hd conf)
    omega
  | raised | answered | tookDims | tookColor => rfl

end

/-! ## How a command word ends -/

/-- Every word, legal or not, ends with a response. -/
theorem runCommand_ends (cmd : CmdWord) (s : State) : Ends s.accept (runCommand cmd s) := by
  unfold runCommand
  split
  · exact exec_ends ..
  · exact ends_raise ..

theorem runCommand_next (cmd : CmdWord) (s : State) :
    ∃ t, runCommand cmd s = .next t ∧ Ends s.accept (.next t) := by
  have hends := runCommand_ends cmd s
  cases hrun : runCommand cmd s with
  | next t => exact ⟨t, rfl, hrun ▸ hends⟩
  | fault r => cases r
  | refused r =>
    obtain ⟨u, st, nib, data, heq, -⟩ := hends
    cases hrun.symm.trans heq

/-- The response of a command that ends is laid out as R66 says, since a failure carries no result. -/
theorem legalResponse_of_ends {s t : State} (h : Ends s (.next t)) :
    LegalResponse t.rsp ∧ t.rspValid = true ∧ t.busy = false := by
  obtain ⟨u, st, nib, data, heq, hfail, -⟩ := h
  cases heq
  exact ⟨legalResponse_responseWord fun hst => (hfail hst).2, rfl, rfl⟩

/-! ## The obligations -/

/-- Settles O9: a word ends as exec does, or with ILLEGAL_COMMAND. -/
theorem everyCommandEndsWithLegalResponse : Obligations.EveryCommandEndsWithLegalResponse := by
  intro cmd s
  obtain ⟨t, hrun, hends⟩ := runCommand_next cmd s
  obtain ⟨⟨hcode, hzeros, hfailure⟩, hvalid, hbusy⟩ := legalResponse_of_ends hends
  exact ⟨t, hrun, hvalid, hbusy, hcode, hzeros, hfailure⟩

/-- Settles O17: a status other than OK comes with the state as it was accepted. -/
theorem failingCommandChangesNothing : Obligations.FailingCommandChangesNothing := by
  intro cmd s t ht hfails
  obtain ⟨u, st, nib, data, heq, hfail, -⟩ := runCommand_ends cmd s
  cases heq.symm.trans ht
  rw [endCommand_rsp, rspStatus_responseWord] at hfails ⊢
  obtain ⟨rfl, rfl, rfl⟩ := hfail (mt (statusCode_eq_zero st).2 hfails)
  exact Host.Outcome.next.inj (raise_eq st s.accept)

/-- Settles O47: clearing and plotting are the only writes, and both stay on the screen. -/
theorem commandsWriteOnlyTheScreen : Obligations.CommandsWriteOnlyTheScreen :=
  fun _ _ _ hd h => ⟨fun _ ha => exec_ramByte_outside hd h ha, fun hi => exec_ram_of_not_drawing h hi⟩

/-- Settles O48: the frame of each register. -/
theorem registersAreWrittenOnlyByTheirCommand : Obligations.RegistersAreWrittenOnlyByTheirCommand := by
  intro s t i h
  obtain ⟨hpalette, htie, hrom, hinput, hanswer⟩ := exec_keepsHost h
  exact ⟨fun hi => exec_curColor h hi, fun hi => exec_dims h hi, hpalette, htie, hrom, hinput, hanswer⟩

end Sys2Proof.Machine
end

section
/-! PROOFS. What every step keeps, reset, and when a step is refused (10_state.md R33, 70_reset_and_hazards.md R127,
R132, R133). -/

namespace Sys2Proof.Machine

/-! ## The invariant's parts across one step -/

theorem legalResponse_zero : LegalResponse 0 := ⟨by decide, by decide, by decide⟩

theorem dimensionsOk_coreReset (s : State) : DimensionsOk s.coreReset := fun hc => by cases hc

/-- Every step keeps the product bound (R23). -/
theorem step_dimensionsOk {s t : State} (hd : DimensionsOk s) (h : step s = .next t) : DimensionsOk t := by
  cases step_cases h with
  | command cmd i rest t _ _ _ run => exact exec_dimensionsOk (s := State.accept { s with input := rest }) hd run
  | host a rest t _ _ op => cases op <;> exact hd
  | reset rest => exact dimensionsOk_coreReset _
  | abandoned cmd k i rest => exact dimensionsOk_coreReset { s with input := rest }
  | abandonedIllegal cmd k e rest => exact dimensionsOk_coreReset _
  | idle | illegal | poll => exact hd

/-- Nothing writes the palette (R24, R33). -/
theorem step_palette {s t : State} (h : step s = .next t) : t.palette = s.palette := by
  cases step_cases h with
  | command cmd i rest t _ _ _ run => exact (exec_keepsHost run).palette
  | host a rest t _ _ op => cases op <;> rfl
  | idle | illegal | poll | reset | abandoned | abandonedIllegal => rfl

/-- A dimension that is set stays as it is unless the core is reset (R33). -/
theorem step_keeps_set_dims {s t : State} (h : step s = .next t) (hreset : ∀ rest, s.input ≠ .reset :: rest)
    (hduring : ∀ cmd k rest, s.input ≠ .resetDuring cmd k :: rest) :
    (s.wSet = true → t.wSet = true ∧ t.w = s.w) ∧ (s.hSet = true → t.hSet = true ∧ t.h = s.h) := by
  cases step_cases h with
  | command cmd i rest t _ _ _ run => exact exec_keeps_set_dims (s := State.accept { s with input := rest }) run
  | host a rest t _ _ op => cases op <;> exact ⟨fun hw => ⟨hw, rfl⟩, fun hh => ⟨hh, rfl⟩⟩
  | reset rest head => exact absurd head (hreset rest)
  | abandoned cmd k _ rest head => exact absurd head (hduring cmd k rest)
  | abandonedIllegal cmd k _ rest head => exact absurd head (hduring cmd k rest)
  | idle | illegal | poll => exact ⟨fun hw => ⟨hw, rfl⟩, fun hh => ⟨hh, rfl⟩⟩

/-- A step from an idle state ends in an idle state. -/
theorem step_busy {s t : State} (hb : s.busy = false) (h : step s = .next t) : t.busy = false := by
  cases step_cases h with
  | command cmd i rest t _ _ _ run =>
    have hends := exec_ends i (State.accept { s with input := rest })
    rw [run] at hends
    exact (legalResponse_of_ends hends).2.2
  | host a rest t _ _ op => cases op <;> exact hb
  | idle | poll => exact hb
  | illegal | reset | abandoned | abandonedIllegal => rfl

/-- Every write a step makes keeps RAM in canonical form. -/
theorem step_ramKept {s t : State} (h : step s = .next t) : RamKept s t.ram := by
  cases step_cases h with
  | command cmd i rest t _ _ _ run => exact exec_ramKept (s := State.accept { s with input := rest }) run
  | host a rest t _ _ op =>
    cases op with
    | ram a bs fit => exact fun hw => Memory.splice_wf hw fit
    | told | rom => exact id
  | abandoned cmd k i rest => exact abandonedRam_ramKept i k { s with input := rest }
  | idle | illegal | poll | reset | abandonedIllegal => exact id

/-- Every write a step makes keeps ROM in canonical form. -/
theorem step_romKept {s t : State} (hw : Memory.wf Config.romInit Config.romSize s.rom) (h : step s = .next t) :
    Memory.wf Config.romInit Config.romSize t.rom := by
  cases step_cases h with
  | command cmd i rest t _ _ _ run => rw [(exec_keepsHost run).rom]; exact hw
  | host a rest t _ _ op =>
    cases op with
    | rom a bs fit => exact Memory.splice_wf hw fit
    | told | ram => exact hw
  | idle | illegal | poll | reset | abandoned | abandonedIllegal => exact hw

/-- Every response that a step leaves is laid out as R66 says. -/
theorem step_legalResponse {s t : State} (hr : LegalResponse s.rsp) (h : step s = .next t) : LegalResponse t.rsp := by
  cases step_cases h with
  | command cmd i rest t _ _ _ run =>
    have hends := exec_ends i (State.accept { s with input := rest })
    rw [run] at hends
    exact (legalResponse_of_ends hends).1
  | illegal => exact legalResponse_responseWord fun _ => ⟨rfl, rfl⟩
  | host a rest t _ _ op => cases op <;> exact hr
  | idle | poll => exact hr
  | reset | abandoned | abandonedIllegal => exact legalResponse_zero

/-! ## An idle core refuses nothing (93_implementation_defined.md Part 1) -/

theorem endHostOp_next (r : Except Status State) (s : State) : ∃ t, endHostOp r s = .next t := by
  cases r <;> exact ⟨_, rfl⟩

theorem tellHost_ite_next (g : Bool) (a b : HostAnswer) (u v : State) :
    ∃ t, (if g then tellHost a u else tellHost b v) = .next t := by
  cases g <;> exact ⟨_, rfl⟩

theorem hostRead_next (addr : Rat) (s : State) : ∃ t, hostRead addr s = .next t := by
  unfold hostRead
  split <;> exact ⟨_, rfl⟩

theorem hostStore_next (dest src len : Rat) (s : State) : ∃ t, hostStore dest src len s = .next t :=
  tellHost_ite_next ..

theorem runAbandoned_next (cmd : CmdWord) (k : Nat) (s : State) : ∃ t, runAbandoned cmd k s = .next t := by
  unfold runAbandoned
  split <;> exact ⟨_, rfl⟩

/-- While BUSY = 0 the host's action is the operation itself, and every operation goes on. -/
theorem perform_next (a : HostAction) {s : State} (hb : s.busy = false) : ∃ t, perform a s = .next t := by
  have free {r r' : Result} (h : ∃ t, r = .next t) : ∃ t, (if s.busy = true then r' else r) = .next t := by
    simpa [hb] using h
  cases a with
  | command cmd =>
    obtain ⟨t, hrun, -⟩ := runCommand_next cmd s
    exact free ⟨t, hrun⟩
  | poll | reset => exact ⟨_, rfl⟩
  | read addr => exact free (hostRead_next ..)
  | write addr val => exact free (endHostOp_next ..)
  | copy dest src len => exact free (tellHost_ite_next ..)
  | restore dest src len => exact free (tellHost_ite_next ..)
  | store dest src len => exact free (hostStore_next ..)
  | storeDefault => exact free (hostStore_next ..)
  | fill dest val len => exact free (endHostOp_next ..)
  | resetDuring cmd k => exact free (runAbandoned_next ..)

theorem step_of_no_input {s : State} (hi : s.input = []) (hb : s.busy = false) : step s = .next s := by
  simp [step, hi, idle, hb]

theorem step_next {s : State} (hb : s.busy = false) : ∃ t, step s = .next t := by
  cases hi : s.input with
  | nil => exact ⟨s, step_of_no_input hi hb⟩
  | cons a rest =>
    simp only [step, hi]
    exact perform_next a (s := { s with input := rest }) hb

/-- While BUSY = 1 a memory access is refused (R133). -/
theorem hostAccess_of_busy (op : State → Result) {s : State} (hb : s.busy = true) :
    hostAccess op s = .refused .hostAccessWhileBusy := if_pos hb

theorem step_of_input {s : State} {a : HostAction} {rest : List HostAction} (hi : s.input = a :: rest) :
    step s = perform a { s with input := rest } := by simp only [step, hi]

/-! ## The obligations -/

/-- Settles O8: the guard of the busy core and the decoder's error are the other two cases of `runCommand`. -/
theorem stepRunsDecodedCommand : Obligations.StepRunsDecodedCommand := by
  intro s cmd rest i hb hi hdec
  rw [step_of_input hi, perform, if_neg (by simp [hb]), runCommand, hdec]
  rfl

/-- Settles O10: each part of the invariant by itself. -/
theorem stepKeepsStateInvariant : Obligations.StepKeepsStateInvariant := by
  intro s t ⟨hram, hrom, hdims, hidle, hrsp⟩ h
  exact ⟨step_ramKept h hram, step_romKept hrom h, step_dimensionsOk hdims h, step_busy hidle h,
    step_legalResponse hrsp h⟩

/-- Settles O11: both memories are empty and no dimension is set. -/
theorem resetMeetsStateInvariant : Obligations.ResetMeetsStateInvariant where
  ram := by decide
  rom := by decide
  dims hc := by cases hc
  idle := rfl
  rsp := legalResponse_zero

/-- Settles O12: the reset state's own values, and empty memories. -/
theorem powerOnResetValues : Obligations.PowerOnResetValues :=
  ⟨rfl, rfl, rfl, rfl, rfl, rfl, paletteEntry_zero _, fun _ => Memory.read_nil _, fun _ => Memory.read_nil _⟩

/-- Settles O13: the reset action is performed in every state. -/
theorem coreResetKeepsRamAndPalette : Obligations.CoreResetKeepsRamAndPalette :=
  fun _ _ hi => ⟨_, step_of_input hi, rfl, rfl, rfl, rfl, rfl, rfl, rfl, rfl, rfl, rfl, rfl⟩

/-- Settles O15: each clause is kept by every step by itself. -/
theorem registerInvariantsBetweenCommands : Obligations.RegisterInvariantsBetweenCommands :=
  fun _ t hd h => ⟨Nat.le_of_lt_succ t.curColor.isLt, step_dimensionsOk hd h, step_palette h, paletteEntry_zero t,
    step_keeps_set_dims h⟩

/-- Settles O58: the guards of `perform` on a busy core, and the poll that has none. -/
theorem busyCoreTakesNoCommandAndNoAccess : Obligations.BusyCoreTakesNoCommandAndNoAccess := by
  refine ⟨fun s a rest hb hi => ?_, fun s rest hi => step_of_input hi⟩
  have access {op : State → Result} (ha : perform a { s with input := rest } = hostAccess op { s with input := rest }) :
      step s = .refused .hostAccessWhileBusy := by
    rw [step_of_input hi, ha, hostAccess_of_busy op (s := { s with input := rest }) hb]
  have word {r : Result} (ha : perform a { s with input := rest } = if s.busy then .refused .commandWhileBusy else r) :
      step s = .refused .commandWhileBusy := by
    rw [step_of_input hi, ha, if_pos hb]
  refine ⟨?_, ?_, ?_, ?_, ?_, ?_, ?_⟩
  · rintro cmd rfl; exact word rfl
  · rintro cmd k rfl; exact word rfl
  · rintro addr rfl; exact access rfl
  · rintro addr v rfl; exact access rfl
  · rintro d c n (rfl | rfl | rfl) <;> exact access rfl
  · rintro rfl; exact access rfl
  · rintro d v n rfl; exact access rfl

/-- Settles O59: an idle core has no refusal, and a step ends idle. -/
theorem idleMachineAlwaysSteps : Obligations.IdleMachineAlwaysSteps := by
  refine ⟨fun s hb => ?_, fun s hi hb => step_of_no_input hi hb⟩
  obtain ⟨t, ht⟩ := step_next hb
  exact ⟨t, ht, step_busy hb ht⟩

end Sys2Proof.Machine
end

section
/-! PROOFS. What a command does not read: ROM and the old response for all of them, and the current color for a drawing
command with a color operand (10_state.md R26, 42_color_palette.md R96, 60_exceptions.md R126). -/

namespace Sys2Proof.Machine

/-! ## Plots read the dimensions and RAM only -/

/-- Two states with the same screen: its dimensions and RAM. -/
structure SameScreen (s v : State) : Prop where
  w : v.w = s.w
  wSet : v.wSet = s.wSet
  h : v.h = s.h
  hSet : v.hSet = s.hSet
  ram : v.ram = s.ram

/-- A plot by its two tests: the screen's and RAM's (R74); the byte it writes is always a byte value. -/
theorem plot_eq (s : State) (c : Nibble) (pt : Point) :
    plot s c pt =
      if onScreen s pt.x pt.y then
        if inRam (byteAddress (pixelIndex s pt.x pt.y)) then
          .ok (s.setRam (cellOf s pt).1 [putNib (ramByte s (cellOf s pt).1) (cellOf s pt).2 c])
        else .error .outOfRange
      else .ok s := by
  unfold plot
  by_cases hin : inRam (byteAddress (pixelIndex s pt.x pt.y)) = true
  · have hbyte (b : Byte) : (0 : Int) ≤ b.toNat ∧ (b.toNat : Int) < 256 := by
      have := b.isLt
      omega
    have hwrite (b : Byte) := memWrite_eq_ok s ⟨(inRam_iff _).1 hin, hbyte b⟩
    simp only [memRead, hin, if_true, hwrite, BitVec.ofInt_natCast, BitVec.ofNat_toNat, BitVec.setWidth_eq, cellOf]
  · simp only [memRead, hin, Bool.false_eq_true, if_false]

section
variable {s v : State} (same : SameScreen s v)
include same

theorem SameScreen.configured_eq : configured v = configured s := by
  simp only [configured, same.wSet, same.hSet]

theorem SameScreen.onScreen_eq (x y : Int) : onScreen v x y = onScreen s x y := by
  rw [Bool.eq_iff_iff, onScreen_iff, onScreen_iff]
  simp only [State.width, State.height, same.w, same.h]

theorem SameScreen.pixelIndex_eq (x y : Int) : pixelIndex v x y = pixelIndex s x y := by
  simp only [pixelIndex, State.width, State.height, same.w, same.h]

theorem SameScreen.ramByte_eq (a : Nat) : ramByte v a = ramByte s a := by
  simp only [ramByte, same.ram]

/-- The two states draw the same figures, if their ties are the same. -/
theorem SameScreen.plotSequence_eq (htie : v.lineTie = s.lineTie) (i : Instr) :
    plotSequence v i = plotSequence s i := by
  cases i <;> simp only [plotSequence, State.width, State.height, same.w, same.h, htie]

theorem SameScreen.plot_eq (c : Nibble) (pt : Point) :
    plot v c pt = (plot s c pt).map fun u => { v with ram := u.ram } := by
  simp only [Machine.plot_eq, cellOf, same.onScreen_eq, same.pixelIndex_eq, same.ramByte_eq]
  split
  · split
    · simp only [Except.map, State.setRam, same.ram]
    · rfl
  · simp only [Except.map, ← same.ram]

/-- A sequence of plots does to the other state what it does to the one. -/
theorem SameScreen.plotAll_eq (c : Nibble) (pts : List Point) :
    plotAll c pts v = (plotAll c pts s).map fun u => { v with ram := u.ram } := by
  induction pts generalizing s v with
  | nil => simp only [plotAll, Except.map, ← same.ram]
  | cons pt pts ih =>
    simp only [plotAll, same.plot_eq]
    cases hplot : plot s c pt with
    | error st => rfl
    | ok u =>
      have hu := plot_ok hplot
      exact ih (s := u) (v := { v with ram := u.ram })
        (by rw [hu]; exact ⟨same.w, same.wSet, same.h, same.hSet, rfl⟩)

/-- A drawing command that ends, on the other state with its color operand resolved to the same color. -/
theorem SameScreen.drawing_eq {col : Int} {pts : List Point} {t : State} (hcol : resolve v col = resolve s col)
    (h : (if configured s then drawPoints col pts s else raise .notConfigured s) = .next t) :
    (if configured v then drawPoints col pts v else raise .notConfigured v) =
      .next { v with ram := t.ram, rsp := t.rsp, rspValid := true, busy := false } := by
  rw [same.configured_eq]
  split at h
  next hc =>
    simp only [hc, if_true, drawPoints, hcol, same.plotAll_eq] at h ⊢
    split at h
    next u hu => cases h; rw [hu]; rfl
    next st hu => cases h; rw [hu]; simp only [Except.map, endCommand_ram, ← same.ram]; rfl
  next hc =>
    cases h
    simp only [hc, endCommand_ram, ← same.ram]
    rfl

/-- RAM when a plot sequence is abandoned. -/
theorem SameScreen.ramAfterPlots_eq {col : Int} (hcol : resolve v col = resolve s col) (pts : List Point) (k : Nat) :
    ramAfterPlots col pts k v = ramAfterPlots col pts k s := by
  simp only [ramAfterPlots, same.configured_eq, hcol, same.plotAll_eq, same.ram]
  cases plotAll (resolve s col) (pts.take k) s <;> rfl

end

/-- What a drawing command that ends has written: RAM and the response. -/
theorem drawing_frame {s t : State} {col : Int} {pts : List Point}
    (h : (if configured s then drawPoints col pts s else raise .notConfigured s) = .next t) :
    t = { s with ram := t.ram, rsp := t.rsp, rspValid := true, busy := false } := by
  have same : SameScreen s s := ⟨rfl, rfl, rfl, rfl, rfl⟩
  exact Host.Outcome.next.inj (h.symm.trans (same.drawing_eq rfl h))

/-! ## ROM and the response before (R26, R126) -/

/-- The state with another ROM and another old response. -/
def State.withRomRsp (s : State) (rom : Memory) (r : RspWord) : State := { s with rom := rom, rsp := r }

section
variable {i : Instr} {s t : State} (rom : Memory) (r : RspWord)

theorem raise_withRomRsp {st : Status} (h : raise st s = .next t) :
    raise st (s.withRomRsp rom r) = .next { t with rom := rom } := by
  cases h; rfl

theorem respond_withRomRsp {nib : NibbleSel} {data : BitVec 32} (h : respond nib data s = .next t) :
    respond nib data (s.withRomRsp rom r) = .next { t with rom := rom } := by
  cases h; rfl

theorem exec_withRomRsp_of_plotSequence {col : Int} {pts : List Point} (seq : plotSequence s i = some (col, pts))
    (h : exec i s = .next t) : exec i (s.withRomRsp rom r) = .next { t with rom := rom } := by
  have same : SameScreen s (s.withRomRsp rom r) := ⟨rfl, rfl, rfl, rfl, rfl⟩
  have seq' : plotSequence (s.withRomRsp rom r) i = some (col, pts) := (same.plotSequence_eq rfl i).trans seq
  rw [exec_of_plotSequence seq] at h
  rw [exec_of_plotSequence seq', same.drawing_eq rfl h, drawing_frame h]
  rfl

/-- With another ROM and another old response a command does the same, and leaves that ROM. -/
theorem exec_withRomRsp (h : exec i s = .next t) : exec i (s.withRomRsp rom r) = .next { t with rom := rom } := by
  have raised {st : Status} (e : exec i s = raise st s)
      (e' : exec i (s.withRomRsp rom r) = raise st (s.withRomRsp rom r)) :
      exec i (s.withRomRsp rom r) = .next { t with rom := rom } :=
    e'.trans (raise_withRomRsp rom r (e.symm.trans h))
  have answered {nib : NibbleSel} {data : BitVec 32} {u : State} (e : exec i s = respond nib data u)
      (e' : exec i (s.withRomRsp rom r) = respond nib data (u.withRomRsp rom r)) :
      exec i (s.withRomRsp rom r) = .next { t with rom := rom } :=
    e'.trans (respond_withRomRsp rom r (e.symm.trans h))
  cases i with
  | cfg wv hv w h' =>
    by_cases hp : CfgPairTooLarge s wv hv w h'
    · exact raised (exec_cfg_tooLarge hp) (exec_cfg_tooLarge hp)
    · exact answered (exec_cfg_fits hp) (exec_cfg_fits hp)
  | xlate x y =>
    by_cases hc : configured s = true
    · exact answered (exec_xlate_of_configured hc) (exec_xlate_of_configured hc)
    · exact raised (if_neg hc) (if_neg hc)
  | pget x y =>
    by_cases hc : configured s = true
    · by_cases ha : 0 ≤ byteAddress (pixelIndex s x y) ∧ byteAddress (pixelIndex s x y) < 32768
      · exact answered (exec_pget_inRam hc ha) (exec_pget_inRam hc ha)
      · exact raised (exec_pget_outOfRam hc ha) (exec_pget_outOfRam hc ha)
    · exact raised (if_neg hc) (if_neg hc)
  | cls => exact answered (execCls_eq _) (execCls_eq _)
  | color idx =>
    by_cases hidx : 0 ≤ idx ∧ idx ≤ 15
    · exact answered (exec_color_inRange _ hidx) (exec_color_inRange _ hidx)
    · exact raised (if_neg hidx) (if_neg hidx)
  | pal idx =>
    by_cases hidx : 0 ≤ idx ∧ idx ≤ 15
    · exact answered (exec_pal_inRange _ hidx) (exec_pal_inRange _ hidx)
    · exact raised (if_neg hidx) (if_neg hidx)
  | pset | line | rect | rectfill | circ | circfill => exact exec_withRomRsp_of_plotSequence rom r rfl h

/-- The same of a command word: accepting it does not touch ROM and the old response. -/
theorem runCommand_withRomRsp {cmd : CmdWord} (h : runCommand cmd s = .next t) :
    runCommand cmd (s.withRomRsp rom r) = .next { t with rom := rom } := by
  unfold runCommand at h ⊢
  split at h
  · exact exec_withRomRsp (s := s.accept) rom r h
  · exact raise_withRomRsp (s := s.accept) rom r h

end

/-! ## The current color (R96) -/

/-- A color operand in range stands for itself, whatever the current color. -/
theorem resolve_inRange {col : Int} (h : 0 ≤ col ∧ col ≤ 15) (s : State) : resolve s col = BitVec.ofInt 4 col :=
  if_pos h

theorem exec_with_curColor {i : Instr} {s t : State} {col : Int} {pts : List Point} (c : Nibble)
    (hcol : 0 ≤ col ∧ col ≤ 15) (seq : plotSequence s i = some (col, pts)) (h : exec i s = .next t) :
    exec i { s with curColor := c } = .next { t with curColor := c } := by
  have same : SameScreen s { s with curColor := c } := ⟨rfl, rfl, rfl, rfl, rfl⟩
  have seq' : plotSequence { s with curColor := c } i = some (col, pts) := (same.plotSequence_eq rfl i).trans seq
  rw [exec_of_plotSequence seq] at h
  rw [exec_of_plotSequence seq', same.drawing_eq ((resolve_inRange hcol _).trans (resolve_inRange hcol s).symm) h,
    drawing_frame h]

/-! ## The obligations -/

/-- Settles O20: a failed command leaves the state it found but for the interface, which a command does not read. -/
theorem retryFailsTheSameWay : Obligations.RetryFailsTheSameWay := by
  intro cmd s t ht hfails
  have hrest : t.accept = s.accept.withRomRsp s.rom t.rsp := by
    rw [failingCommandChangesNothing cmd s t ht hfails]
    rfl
  have hagain : runCommand cmd t = runCommand cmd (s.withRomRsp s.rom t.rsp) := by
    unfold runCommand
    rw [hrest]
    rfl
  exact ⟨_, hagain.trans (runCommand_withRomRsp s.rom t.rsp ht), rfl⟩

/-- Settles O49: the command neither reads the other ROM nor writes it. -/
theorem commandsNeitherReadNorWriteRom : Obligations.CommandsNeitherReadNorWriteRom := by
  intro s t cmd rom ht
  obtain ⟨u, st, nib, data, heq, -, hkeeps⟩ := runCommand_ends cmd s
  refine ⟨?_, runCommand_withRomRsp rom s.rsp ht⟩
  cases heq.symm.trans ht
  exact hkeeps.rom

/-- Settles O50: each of the six commands makes the same plots in the same color. -/
theorem validColorIgnoresCurrentColor : Obligations.ValidColorIgnoresCurrentColor := by
  intro s t c x0 y0 x1 y1 col h0 h15 i hi ht
  have hcol := And.intro h0 h15
  simp only [List.mem_cons, List.not_mem_nil, or_false] at hi
  obtain rfl | rfl | rfl | rfl | rfl | rfl := hi <;> exact exec_with_curColor c hcol rfl ht

end Sys2Proof.Machine
end

section
/-! PROOFS. A command abandoned by a reset (70_reset_and_hazards.md R127, 93_implementation_defined.md U8). -/

namespace Sys2Proof.Machine

/-- RAM after all plots of a drawing command is RAM after the first `k`, when there are no more than `k`. -/
theorem drawing_ram {s t : State} {col : Int} {pts : List Point} {k : Nat} (hk : pts.length ≤ k)
    (h : (if configured s then drawPoints col pts s else raise .notConfigured s) = .next t) :
    t.ram = ramAfterPlots col pts k s := by
  by_cases hc : configured s = true
  · simp only [hc, if_true, drawPoints] at h
    simp only [ramAfterPlots, List.take_of_length_le hk, hc, if_true]
    cases hplots : plotAll (resolve s col) pts s with
    | ok u => rw [hplots] at h; cases h; rfl
    | error st => rw [hplots] at h; cases h; rfl
  · rw [if_neg hc] at h
    rw [ramAfterPlots, if_neg hc]
    cases h; rfl

/-- The state from which an abandoned command starts, and the whole command too. -/
theorem sameScreen_accept (s : State) : SameScreen s s.accept := ⟨rfl, rfl, rfl, rfl, rfl⟩

theorem plotsReach_take {s : State} {pts : List Point} {k a : Nat} {n : NibbleSel}
    (h : PlotsReach s (pts.take k) a n) : PlotsReach s pts a n := by
  obtain ⟨hc, pt, hpt, hreach⟩ := h
  exact ⟨hc, pt, List.mem_of_mem_take hpt, hreach⟩

theorem plotsReach_nil (s : State) (a : Nat) (n : NibbleSel) : ¬ PlotsReach s [] a n := by
  rintro ⟨-, pt, hpt, -⟩
  exact List.not_mem_nil hpt

/-- What U8 says of RAM when the command `i` is abandoned in `s`, `u` being where the whole command leads: `last` steps
reach the whole of it, none is made at the start, and the steps made so far are what it holds. -/
structure Abandons (i : Instr) (s u : State) (last : Nat) : Prop where
  start : ∀ a, Memory.read Config.ramInit (abandonedRam i 0 s) a = ramByte s a
  finish : ∀ k, last ≤ k → ∀ a, Memory.read Config.ramInit (abandonedRam i k s) a = ramByte u a
  reached : ∀ k a n, FirstWrites i k s a n →
    getNib (Memory.read Config.ramInit (abandonedRam i k s) a) n = getNib (ramByte u a) n
  kept : ∀ k a n, ¬ FirstWrites i k s a n →
    getNib (Memory.read Config.ramInit (abandonedRam i k s) a) n = getNib (ramByte s a) n

/-- A drawing command keeps its first plots. -/
theorem abandons_of_plotSequence {i : Instr} {s u : State} {col : Int} {pts : List Point} (hd : DimensionsOk s)
    (seq : plotSequence s i = some (col, pts)) (h : exec i s.accept = .next u) : Abandons i s u pts.length := by
  have same := sameScreen_accept s
  have hwhole {k : Nat} (hk : pts.length ≤ k) : u.ram = ramAfterPlots col pts k s := by
    have seq' : plotSequence s.accept i = some (col, pts) := (same.plotSequence_eq rfl i).trans seq
    rw [exec_of_plotSequence seq'] at h
    rw [drawing_ram hk h, same.ramAfterPlots_eq rfl]
  have hnibble (k a : Nat) (n : NibbleSel) := ramAfterPlots_nibble col pts k hd a n
  refine ⟨fun a => ?_, fun k hk a => ?_, fun k a n hreach => ?_, fun k a n hreach => ?_⟩
  · rw [abandonedRam_of_plotSequence seq]
    exact byte_ext_of_nibbles fun n => (hnibble 0 a n).2 (plotsReach_nil s a n)
  · rw [abandonedRam_of_plotSequence seq, ramByte, hwhole hk]
  · rw [firstWrites_of_plotSequence seq] at hreach
    rw [abandonedRam_of_plotSequence seq, (hnibble k a n).1 hreach, ramByte, hwhole le_rfl,
      (hnibble pts.length a n).1 (by rw [List.take_length]; exact plotsReach_take hreach)]
  · rw [firstWrites_of_plotSequence seq] at hreach
    rw [abandonedRam_of_plotSequence seq, (hnibble k a n).2 hreach]

/-- CLS keeps its first bytes. -/
theorem abandons_cls {s u : State} (h : exec .cls s.accept = .next u) : Abandons .cls s u 8192 := by
  have hwhole (a : Nat) : ramByte u a = if 0x6000 ≤ a ∧ a < 0x6000 + 8192 then 0 else ramByte s a := by
    cases (execCls_eq s.accept).symm.trans h
    exact Memory.read_fill ..
  have hfirst (k a : Nat) : Memory.read Config.ramInit (abandonedRam .cls k s) a =
      if 0x6000 ≤ a ∧ a < 0x6000 + min k 8192 then 0 else ramByte s a := Memory.read_fill ..
  refine ⟨fun a => ?_, fun k hk a => ?_, fun k a n hreach => ?_, fun k a n hreach => ?_⟩
  · rw [hfirst, if_neg (by omega)]
  · rw [hfirst, hwhole, Nat.min_eq_right hk]
  · have hin : 0x6000 ≤ a ∧ a < 0x6000 + min k 8192 := hreach
    rw [hfirst, hwhole, if_pos hin, if_pos (by omega)]
  · have hout : ¬ (0x6000 ≤ a ∧ a < 0x6000 + min k 8192) := hreach
    rw [hfirst, if_neg hout]

/-- A command that draws nothing has nothing to keep. -/
theorem abandons_of_not_drawing {i : Instr} {s u : State} (h : exec i s.accept = .next u)
    (hi : i.opcode ∈ [Opcode.cfg, .xlate, .pget, .color, .pal]) (hnone : ∀ k a n, ¬ FirstWrites i k s a n)
    (hram : ∀ k, abandonedRam i k s = s.ram) : Abandons i s u 0 := by
  have hwhole : u.ram = s.ram := exec_ram_of_not_drawing (s := s.accept) h hi
  refine ⟨fun a => ?_, fun k _ a => ?_, fun k a n hreach => absurd hreach (hnone k a n), fun k a n _ => ?_⟩
  · rw [hram, ramByte]
  · rw [hram, ramByte, hwhole]
  · rw [hram, ramByte]

theorem exec_next (i : Instr) (s : State) : ∃ u, exec i s = .next u := by
  obtain ⟨u, st, nib, data, heq, -⟩ := exec_ends i s
  exact ⟨_, heq⟩

theorem exists_abandons {i : Instr} {s u : State} (hd : DimensionsOk s) (h : exec i s.accept = .next u) :
    ∃ last, Abandons i s u last := by
  cases i with
  | cls => exact ⟨_, abandons_cls h⟩
  | pset | line | rect | rectfill | circ | circfill => exact ⟨_, abandons_of_plotSequence hd rfl h⟩
  | cfg | xlate | pget | color | pal =>
    exact ⟨0, abandons_of_not_drawing h (by simp [Instr.opcode]) (fun _ _ _ => id) fun _ => rfl⟩

/-! ## The obligations -/

/-- Settles O14: the drawing commands, CLS, and those that write no RAM. -/
theorem abandonedCommandKeepsItsWrites : Obligations.AbandonedCommandKeepsItsWrites := by
  intro s cmd i rest hb hd hdec
  obtain ⟨u, hu⟩ := exec_next i (State.accept { s with input := rest })
  obtain ⟨last, hstart, hfinish, hreached, hkept⟩ := exists_abandons (s := { s with input := rest }) hd hu
  have hstep (k : Nat) : step { s with input := .resetDuring cmd k :: rest } =
      .next { State.coreReset { s with input := rest } with ram := abandonedRam i k { s with input := rest } } := by
    rw [step_of_input rfl, perform, if_neg (by simp [hb]), runAbandoned, hdec]
  refine ⟨u, hu, last, fun k => ⟨_, hstep k, rfl, rfl, rfl, rfl, rfl, rfl, rfl, ?_, hfinish k, fun a n => ?_⟩⟩
  · rintro rfl; exact hstart
  · exact ⟨hreached k a n, hkept k a n⟩

end Sys2Proof.Machine
end

section
/-! PROOFS. The translator's ranges, PSET against PGET, PGET against PAL, and the host's truncation (00_scope.md R14,
40_addressing_pixel.md R73, R79, R80, 42_color_palette.md R100, 20_memory.md section 4). -/

namespace Sys2Proof.Machine

/-! ## Ranges (R14, R73) -/

/-- Under the product bound a screen has no rows, or no more columns than the bound. -/
theorem height_zero_or_width_le {s : State} (h : s.w.toNat * s.h.toNat ≤ Config.maxPixels) :
    s.height = 0 ∨ s.width ≤ 16384 := by
  have hprod := width_mul_height_le h
  have hh : 0 ≤ s.height := Int.natCast_nonneg _
  have hw : 0 ≤ s.width := Int.natCast_nonneg _
  rcases hh.eq_or_lt with hzero | hpos
  · exact .inl hzero.symm
  · exact .inr ((le_mul_of_one_le_right hw hpos).trans hprod)

theorem width_range (s : State) : 0 ≤ s.width ∧ s.width ≤ 65535 := by
  have := s.w.isLt
  simp only [State.width]
  omega

/-- R14's bounds of the pixel index. -/
theorem pixelIndex_bounds {s : State} {x y : Int} (hd : s.w.toNat * s.h.toNat ≤ Config.maxPixels)
    (hx : -32768 ≤ x ∧ x ≤ 32767) (hy : -32768 ≤ y ∧ y ≤ 32767) :
    -(2 ^ 31) ≤ pixelIndex s x y ∧ pixelIndex s x y ≤ 2147418112 := by
  have hp : pixelIndex s x y = x + s.width * s.height - (y + 1) * s.width := by rw [pixelIndex]; ring
  have hprod := width_mul_height_le hd
  obtain ⟨hw0, hw⟩ := width_range s
  have hlow : (y + 1) * s.width ≤ 32768 * s.width := mul_le_mul_of_nonneg_right (by omega) hw0
  have hhigh : -32767 * s.width ≤ (y + 1) * s.width := mul_le_mul_of_nonneg_right (by omega) hw0
  have hpos : 0 ≤ s.width * s.height := mul_nonneg hw0 (Int.natCast_nonneg _)
  rw [hp]
  rcases height_zero_or_width_le hd with hh | hw'
  · rw [hh, mul_zero] at *
    omega
  · omega

/-- Thirty-two bits of two's complement hold every address that the translator makes from 16-bit operands. -/
theorem byteAddress_toInt {p : Int} (h : -(2 ^ 31) ≤ p ∧ p ≤ 2147418112) :
    (BitVec.ofInt 32 (byteAddress p)).toInt = byteAddress p := by
  rw [BitVec.toInt_ofInt]
  refine Int.bmod_eq_of_le ?_ ?_ <;> simp only [byteAddress, Config.screenBase] <;> omega

/-- The right neighbour has the next index. -/
theorem pixelIndex_succ (s : State) (x y : Int) : pixelIndex s (x + 1) y = pixelIndex s x y + 1 := by
  rw [pixelIndex, pixelIndex]; ring

theorem byteAddress_succ_eq_iff (p : Int) : byteAddress (p + 1) = byteAddress p ↔ p % 2 = 0 := by
  simp only [byteAddress]; omega

/-! ## PSET and PGET (R80) -/

/-- The response to a PGET, as one number. -/
theorem responseWord_of_nibble :
    ∀ c : Nibble, responseWord .ok .low (c.setWidth 32) = BitVec.ofInt 64 ((c.toNat : Int) * 2 ^ 32) := by decide

/-- PGET writes the interface only. -/
theorem exec_pget_frame {s t : State} {x y : Int} (h : exec (.pget x y) s = .next t) :
    t = { s with rsp := t.rsp, rspValid := true, busy := false } := by
  cases exec_cases h with
  | raised | answered => rfl
  | drew _ _ _ _ seq => cases seq

section
variable {s : State} {x y : Int}

/-- On-screen PGET answers the pixel's color. -/
theorem exec_pget_onScreen (hd : DimensionsOk s) (hc : configured s = true) (ho : onScreen s x y = true) :
    exec (.pget x y) s = respond .low ((pixelAt s x y).setWidth 32) s := by
  have := byteAddress_range ho (hd hc)
  exact exec_pget_inRam hc (by omega)

/-- PSET paints its one pixel. -/
theorem exec_pset_paints {col : Int} (hd : DimensionsOk s) (hc : configured s = true) :
    ∃ t, exec (.pset x y col) s = .next t ∧ PaintsExactly s t (resolve s col) fun u v => u = x ∧ v = y := by
  obtain ⟨-, hpaints⟩ := drawing_paints (s := s) (col := col) (pts := [⟨x, y⟩]) hd
    (S := fun u v => u = x ∧ v = y) fun u v _ => by simp
  exact hpaints hc

end

/-! ## PGET and PAL (R100) -/

/-- DATA holds every nibble. -/
theorem setWidth_nibble_toNat (c : Nibble) : (c.setWidth 32).toNat = c.toNat := by
  have := c.isLt
  rw [BitVec.toNat_setWidth]; omega

/-- The DATA of a PGET is a nibble, 0 when it fails. -/
theorem exec_pget_data {s t : State} {x y : Int} (h : exec (.pget x y) s = .next t) :
    ∃ c : Nibble, rspData t.rsp = c.setWidth 32 := by
  by_cases hc : configured s = true
  · by_cases ha : 0 ≤ byteAddress (pixelIndex s x y) ∧ byteAddress (pixelIndex s x y) < 32768
    · cases (exec_pget_inRam hc ha).symm.trans h
      exact ⟨pixelAt s x y, rspData_responseWord ..⟩
    · cases (exec_pget_outOfRam hc ha).symm.trans h
      exact ⟨0, rspData_responseWord ..⟩
  · cases (if_neg hc).symm.trans h
    exact ⟨0, rspData_responseWord ..⟩

/-! ## Truncation (20_memory.md section 4) -/

/-- Truncation toward zero is the floor of an argument that is not negative. -/
theorem truncZero_of_nonneg {q : Rat} (h : 0 ≤ q) : truncZero q = ⌊q⌋ := by
  rw [truncZero, Int.tdiv_eq_ediv_of_nonneg (Rat.num_nonneg.2 h), Rat.floor_def']

theorem truncZero_neg (q : Rat) : truncZero (-q) = -truncZero q := by
  rw [truncZero, truncZero, Rat.num_neg_eq_neg_num, Rat.den_neg_eq_den, Int.neg_tdiv]

/-- For an argument that is not negative, truncation stays between 0 and the argument and within one of it. -/
theorem truncZero_bounds {q : Rat} (h : 0 ≤ q) :
    (0 : Rat) ≤ (truncZero q : Rat) ∧ (truncZero q : Rat) ≤ q ∧ q < (truncZero q : Rat) + 1 := by
  rw [truncZero_of_nonneg h]
  exact ⟨Int.cast_nonneg (Int.floor_nonneg.2 h), Int.floor_le q, Int.lt_floor_add_one q⟩

/-! ## The obligations -/

/-- Settles O22: the bounds of the index, and an address of 32 bits. -/
theorem pixelIndexFitsThirtyTwoBits : Obligations.PixelIndexFitsThirtyTwoBits := by
  intro s x y hd hc hx hy
  have hbounds := pixelIndex_bounds (hd hc) (of_decide_eq_true hx) (of_decide_eq_true hy)
  exact ⟨hbounds.1, hbounds.2, byteAddress_toInt hbounds⟩

/-- Settles O23: each clause is a fact about the pixel index. -/
theorem onScreenPixelsLieInScreenRegion : Obligations.OnScreenPixelsLieInScreenRegion := by
  intro s x y hd hc ho
  obtain ⟨hindex0, hindex⟩ := pixelIndex_range ho
  refine ⟨⟨hindex0, hindex, width_mul_height_le (hd hc)⟩, byteAddress_range ho (hd hc), fun u v ho' haddr hnib => ?_, ?_⟩
  · exact pixelIndex_injective ho' ho (index_of_address_nibble haddr hnib)
  · rw [pixelIndex_succ, byteAddress_succ_eq_iff]

/-- Settles O26: PSET paints one pixel, and PGET reads it. -/
theorem psetThenPgetReturnsColor : Obligations.PsetThenPgetReturnsColor := by
  refine fun s x y hd hc => ⟨fun c ho h0 h15 => ?_, fun col t ho ht a => ?_, fun t ht => exec_pget_frame ht⟩
  · obtain ⟨t, hpset, hrest, hpainted, -, hnibbles, -⟩ := exec_pset_paints (x := x) (y := y) (col := c) hd hc
    have hdims : DimensionsOk t.accept := by rw [hrest]; exact hd
    have hconf : configured t.accept = true := by rw [hrest]; exact hc
    have hon : onScreen t.accept x y = true := by rw [hrest]; exact ho
    have hcolor : pixelAt t.accept x y = resolve s c := hpainted x y ho ⟨rfl, rfl⟩
    refine ⟨t, _, hpset, exec_pget_onScreen hdims hconf hon, ?_, fun a n hno => hnibbles a n ?_⟩
    · rw [endCommand_rsp, responseWord_of_nibble, hcolor, resolve_inRange ⟨h0, h15⟩, nibbleOfInt_toNat ⟨h0, h15⟩]
    · rintro u v - ⟨rfl, rfl⟩; exact hno
  · cases (exec_pset_offScreen hc ho).symm.trans ht
    rfl

/-- Settles O27: the index of each row, and PGET inside RAM and beyond it. -/
theorem aliasingTableAt128 : Obligations.AliasingTableAt128 := by
  intro s hw hh hc
  have hwidth : s.width = 128 := by rw [State.width, hw]; rfl
  have hheight : s.height = 128 := by rw [State.height, hh]; rfl
  refine ⟨fun row hrow => ?_, ?_⟩
  · have hfacts : row.1 + (128 - row.2.1 - 1) * 128 = row.2.2.1 ∧ byteAddress row.2.2.1 = row.2.2.2.1 ∧
        nibbleSel row.2.2.1 = row.2.2.2.2 ∧ 0 ≤ row.2.2.2.1 := by
      revert row
      decide
    obtain ⟨hformula, haddr, hnib, hpos⟩ := hfacts
    have hindex : pixelIndex s row.1 row.2.1 = row.2.2.1 := by rw [pixelIndex, hwidth, hheight, hformula]
    have haddress : byteAddress (pixelIndex s row.1 row.2.1) = row.2.2.2.1 := by rw [hindex, haddr]
    have hnibble : nibbleSel (pixelIndex s row.1 row.2.1) = row.2.2.2.2 := by rw [hindex, hnib]
    refine ⟨hindex, haddress, hnibble, fun hin => ?_, fun hout => ?_⟩
    · refine ⟨_, exec_pget_inRam hc (by omega), rspStatus_responseWord .., ?_⟩
      rw [rspData_responseWord, setWidth_nibble_toNat, pixelAt, haddress, hnibble]
    · rw [exec_pget_outOfRam hc (by omega), raise_eq]; rfl
  · have halias : pixelIndex s 128 5 = pixelIndex s 0 4 := by
      rw [pixelIndex, pixelIndex, hwidth, hheight]; rfl
    simp only [exec, execPget, halias]

/-- Settles O45: 32 bits of DATA hold a nibble, which is an index that PAL takes. -/
theorem palOfPgetAlwaysSucceeds : Obligations.PalOfPgetAlwaysSucceeds := by
  intro s t x y ht _
  obtain ⟨c, hdata⟩ := exec_pget_data ht
  rw [hdata]
  refine ⟨?_, fun u => ⟨_, exec_pal_of_nibble u c, rspStatus_responseWord ..⟩⟩
  rw [setWidth_nibble_toNat]
  exact Nat.le_of_lt_succ c.isLt

/-- Settles O51: the floor of the argument, or of its negation. -/
theorem truncationIsTowardZero : Obligations.TruncationIsTowardZero := by
  refine fun q => ⟨truncZero_bounds, fun hq => ?_⟩
  obtain ⟨h0, hle, hlt⟩ := truncZero_bounds (neg_nonneg.2 hq)
  rw [truncZero_neg, Int.cast_neg] at *
  exact ⟨by linarith, by linarith, by linarith⟩

end Sys2Proof.Machine
end

section
/-! PROOFS. The end state of a plot sequence by its on-screen points, and RECTFILL's clipped loops (41_raster.md R89,
R94). -/

namespace Sys2Proof.Machine

/-! ## Clipped loops (R89) -/

/-- The points of a row that are on the screen are none, or those with an on-screen column. -/
theorem filter_row_onScreen (s : State) (y : Int) (xs : List Int) :
    (xs.map fun x => (⟨x, y⟩ : Point)).filter (fun p => onScreen s p.x p.y) =
      if 0 ≤ y ∧ y < s.height then (xs.filter fun x => decide (0 ≤ x ∧ x < s.width)).map fun x => ⟨x, y⟩ else [] := by
  rw [List.filter_map]
  split
  next hy =>
    congr 1
    refine List.filter_congr fun x _ => ?_
    simp only [Function.comp_apply, onScreen, hy, and_true]
  next hy =>
    rw [List.map_eq_nil_iff, List.filter_eq_nil_iff]
    intro x _
    simp only [Function.comp_apply, onScreen_iff]
    omega

/-- A loop over a list whose body is empty outside a class is the loop over that class. -/
theorem flatMap_ite_eq_filter_flatMap {α β : Type} (p : α → Prop) [DecidablePred p] (f : α → List β) (l : List α) :
    (l.flatMap fun a => if p a then f a else []) = (l.filter fun a => decide (p a)).flatMap f := by
  induction l with
  | nil => rfl
  | cons a l ih => by_cases h : p a <;> simp [h, ih]

/-- A loop range filtered by the screen's is the clipped range. -/
theorem filter_intRange_eq {a b w : Int} (hab : a ≤ b) :
    (intRange a (b - 1)).filter (fun v => decide (0 ≤ v ∧ v < w)) = intRange (max a 0) (min b w - 1) := by
  have hend : a + ((b - 1 - a + 1).toNat : Int) = b := by omega
  rw [intRange, filter_intsFrom, hend]

/-- The on-screen points of the whole box are the plots of the clipped loops, in the same order. -/
theorem filter_boxPoints_onScreen (s : State) (x0 y0 x1 y1 : Int) :
    (boxPoints (min x0 x1) (min y0 y1) (max x0 x1) (max y0 y1)).filter (fun p => onScreen s p.x p.y) =
      rectfillPoints s.width s.height x0 y0 x1 y1 := by
  have hx : min x0 x1 ≤ max x0 x1 := by omega
  have hy : min y0 y1 ≤ max y0 y1 := by omega
  simp only [boxPoints, rectfillPoints, List.filter_flatMap, filter_row_onScreen, flatMap_ite_eq_filter_flatMap,
    filter_intRange_eq hx, filter_intRange_eq hy]

theorem linePoints_self (tie : LineTie) (x y : Int) : linePoints tie x y x y = [⟨x, y⟩] := by
  simp [linePoints, lineFrom]

/-! ## The obligations -/

/-- Settles O32: a walk between equal end points is one plot. -/
theorem singlePointLineIsPset : Obligations.SinglePointLineIsPset := by
  intro s x y col
  rw [exec, exec, execLine, execPset, linePoints_self]

/-- Settles O35: the clipped loops leave out the off-screen plots of the whole box, which do nothing. -/
theorem rectfillClippingIsInvisible : Obligations.RectfillClippingIsInvisible := by
  intro s x0 y0 x1 y1 col hc
  rw [exec, execRectfill, if_pos hc, ← filter_boxPoints_onScreen, drawPoints, plotAll_filter_onScreen, drawPoints]

/-- Settles O36: both sequences paint the same nibbles of RAM, which has one canonical form. -/
theorem endStateDependsOnlyOnPixelSet : Obligations.EndStateDependsOnlyOnPixelSet := by
  intro s col ps qs hd hc hwf hsame
  obtain ⟨m, hps, hmwf, hm⟩ := drawPoints_eq col ps (hd hc)
  obtain ⟨m', hqs, hmwf', hm'⟩ := drawPoints_eq col qs (hd hc)
  have hreach (a : Nat) (n : NibbleSel) : (∃ pt ∈ ps, onScreen s pt.x pt.y = true ∧ cellOf s pt = (a, n)) ↔
      ∃ pt ∈ qs, onScreen s pt.x pt.y = true ∧ cellOf s pt = (a, n) :=
    exists_congr fun pt => and_congr_left fun hpt => hsame pt hpt.1
  have hram : m = m' := Memory.ext_of_wf (hmwf hwf) (hmwf' hwf) fun a => byte_ext_of_nibbles fun n => by
    simp only [hm, hm', hreach]
  refine ⟨by rw [hps, hqs, hram], ?_⟩
  rw [hps, respond_zero]
  exact ⟨_, rfl, rfl⟩

end Sys2Proof.Machine
end

section
/-! PROOFS. The steps of a circle, its outline's symmetry and its disk (41_raster.md R90 to R95). -/

namespace Sys2Proof.Machine

/-! ## The loop of circle_steps (R90) -/

/-- The decision variable at the offset `(x, y)` in closed form (R90). -/
def circleErr (r x y : Int) : Int := x * (x - 1) + (y + 1) ^ 2 - r ^ 2

/-- Where the step from the offset `(x, y)` goes in x (R90). -/
def circleNextX (r x y : Int) : Int := if circleErr r x y < 0 then x else x - 1

theorem circleNextX_eq_or (r x y : Int) : circleNextX r x y = x ∨ circleNextX r x y = x - 1 := by
  unfold circleNextX
  split
  · exact .inl rfl
  · exact .inr rfl

/-- One pass of the loop, which keeps the decision variable in closed form. -/
theorem circleFrom_succ (r : Int) (fuel : Nat) (x y : Int) :
    circleFrom (fuel + 1) x y (circleErr r x y) =
      if y ≤ x then
        ⟨x, y⟩ :: circleFrom fuel (circleNextX r x y) (y + 1) (circleErr r (circleNextX r x y) (y + 1))
      else [] := by
  rw [circleFrom]
  by_cases herr : circleErr r x y < 0
  · have hstep : circleErr r x y + 2 * (y + 1) + 1 = circleErr r x (y + 1) := by simp only [circleErr]; ring
    rw [circleNextX, if_pos herr, if_pos herr, hstep]
  · have hstep : circleErr r x y + 2 * (y + 1 - (x - 1)) + 1 = circleErr r (x - 1) (y + 1) := by
      simp only [circleErr]; ring
    rw [circleNextX, if_neg herr, if_neg herr, hstep]

theorem circleSteps_eq (r : Int) : circleSteps r = circleFrom (r.toNat + 1) r 0 (circleErr r r 0) := by
  have hstart : 1 - r = circleErr r r 0 := by simp only [circleErr]; ring
  rw [circleSteps, hstart]

theorem circleSteps_of_neg {r : Int} (h : r < 0) : circleSteps r = [] := if_neg (by omega)

/-- The first offset of the loop with enough fuel. -/
theorem circleFrom_head {n : Nat} {x y err : Int} (hn : x + 1 - y ≤ n) :
    (circleFrom n x y err)[0]? = if y ≤ x then some ⟨x, y⟩ else none := by
  cases n with
  | zero => rw [if_neg (by omega)]; rfl
  | succ n =>
    rw [circleFrom]
    split <;> rfl

/-- The `k`-th offset of the loop, and the one after it. -/
theorem circleFrom_step {r : Int} {n : Nat} {x y : Int} (hn : x + 1 - y ≤ n) {k : Nat} {o : Point}
    (ho : (circleFrom n x y (circleErr r x y))[k]? = some o) :
    o.y = y + k ∧ (circleFrom n x y (circleErr r x y))[k + 1]? =
      if o.y + 1 ≤ circleNextX r o.x o.y then some ⟨circleNextX r o.x o.y, o.y + 1⟩ else none := by
  induction n generalizing x y k with
  | zero => cases ho
  | succ n ih =>
    have hfuel : circleNextX r x y + 1 - (y + 1) ≤ n := by
      have := circleNextX_eq_or r x y
      omega
    rw [circleFrom_succ] at ho ⊢
    split at ho
    next hyx =>
      rw [if_pos hyx, List.getElem?_cons_succ]
      cases k with
      | zero => cases ho; exact ⟨(add_zero y).symm, circleFrom_head hfuel⟩
      | succ k =>
        obtain ⟨hy, hnext⟩ := ih hfuel (List.getElem?_cons_succ.symm.trans ho)
        exact ⟨by rw [hy]; push_cast; ring, hnext⟩
    next => cases ho

/-- Enough fuel is enough: the loop's own test ends it. -/
theorem circleFrom_fuel_irrelevant {m n : Nat} {x y err : Int} (hm : x + 1 - y ≤ m) (hn : x + 1 - y ≤ n) :
    circleFrom m x y err = circleFrom n x y err := by
  have hdone {k : Nat} {x y err : Int} (h : x < y) : circleFrom k x y err = [] := by
    cases k with
    | zero => rfl
    | succ k => rw [circleFrom, if_neg (by omega)]
  induction m generalizing n x y err with
  | zero => rw [hdone (by omega), hdone (by omega)]
  | succ m ih =>
    cases n with
    | zero => rw [hdone (by omega), hdone (by omega)]
    | succ n =>
      rw [circleFrom, circleFrom, ih (n := n) (x := x) (by omega) (by omega),
        ih (n := n) (x := x - 1) (by omega) (by omega)]

theorem circleFrom_length_le (n : Nat) (x y err : Int) : (circleFrom n x y err).length ≤ n := by
  induction n generalizing x y err with
  | zero => rfl
  | succ n ih =>
    rw [circleFrom]
    split
    · split <;> exact Nat.succ_le_succ (ih ..)
    · exact Nat.zero_le _

/-- Every number between the loop's `y` and its `x` is the `y` or the `x` of one of its offsets: `y` rises by one a
step, `x` falls by at most one, and the loop goes on until they meet. -/
theorem circleFrom_covers {n : Nat} {x y err v : Int} (hn : x + 1 - y ≤ n) (hv : y ≤ v ∧ v ≤ x) :
    ∃ o ∈ circleFrom n x y err, o.y = v ∨ o.x = v := by
  induction n generalizing x y err with
  | zero => omega
  | succ n ih =>
    rw [circleFrom, if_pos (by omega)]
    by_cases hhere : y = v ∨ x = v
    · exact ⟨_, List.mem_cons_self, hhere⟩
    · have hrest {x' err' : Int} (hx : x' = x ∨ x' = x - 1) : ∃ o ∈ circleFrom n x' (y + 1) err', o.y = v ∨ o.x = v :=
        ih (by omega) (by omega)
      split
      · obtain ⟨o, ho, hov⟩ := hrest (.inl rfl)
        exact ⟨o, List.mem_cons_of_mem _ ho, hov⟩
      · obtain ⟨o, ho, hov⟩ := hrest (.inr rfl)
        exact ⟨o, List.mem_cons_of_mem _ ho, hov⟩

/-! ## Outline and disk (R91 to R93) -/

theorem mem_circPoints_iff {cx cy r x y : Int} :
    ⟨x, y⟩ ∈ circPoints cx cy r ↔
      ∃ o ∈ circleSteps r, (|x - cx| = o.x ∧ |y - cy| = o.y) ∨ (|x - cx| = o.y ∧ |y - cy| = o.x) := by
  rw [mem_circPoints]
  exact exists_congr fun o => and_congr_right fun ho => mem_octantPoints (circleSteps_octant ho)

theorem mem_circfillPoints_iff {tie : LineTie} {cx cy r x y : Int} :
    ⟨x, y⟩ ∈ circfillPoints tie cx cy r ↔
      ∃ o ∈ circleSteps r, (|x - cx| ≤ o.x ∧ |y - cy| = o.y) ∨ (|x - cx| ≤ o.y ∧ |y - cy| = o.x) := by
  rw [circfillPoints, List.mem_flatMap]
  exact exists_congr fun o => and_congr_right fun ho => mem_spanPoints tie (circleSteps_octant ho)

/-- A point of a disk's row that is no farther from the centre than a point of the disk is in it. -/
theorem mem_circfillPoints_of_abs_le {tie : LineTie} {cx cy r x w y : Int}
    (h : ⟨x, y⟩ ∈ circfillPoints tie cx cy r) (hw : |w - cx| ≤ |x - cx|) : ⟨w, y⟩ ∈ circfillPoints tie cx cy r := by
  rw [mem_circfillPoints_iff] at h ⊢
  obtain ⟨o, ho, hspan⟩ := h
  exact ⟨o, ho, hspan.imp (And.imp_left hw.trans) (And.imp_left hw.trans)⟩

theorem circleSteps_le {r : Int} {o : Point} (h : o ∈ circleSteps r) : 0 ≤ o.y ∧ o.y ≤ o.x ∧ o.x ≤ r :=
  circleFrom_bounds le_rfl o h

theorem circleSteps_covers {r v : Int} (h : 0 ≤ v ∧ v ≤ r) : ∃ o ∈ circleSteps r, o.y = v ∨ o.x = v :=
  circleFrom_covers (by omega) h

/-- The rows of a disk. -/
theorem circfillPoints_row_iff {tie : LineTie} {cx cy r y : Int} :
    (∃ x, ⟨x, y⟩ ∈ circfillPoints tie cx cy r) ↔ |y - cy| ≤ r := by
  simp only [mem_circfillPoints_iff]
  constructor
  · rintro ⟨x, o, ho, hspan⟩
    have := circleSteps_le ho
    omega
  · intro hy
    obtain ⟨o, ho, hov⟩ := circleSteps_covers ⟨abs_nonneg (y - cy), hy⟩
    have hoct := circleSteps_le ho
    have hcentre : |cx - cx| = 0 := by rw [sub_self, abs_zero]
    exact ⟨cx, o, ho, by omega⟩

/-! ## The obligations -/

/-- Settles O37: the loop's first offset, and each step with the decision variable in closed form. -/
theorem circleStepsWalkTheOctant : Obligations.CircleStepsWalkTheOctant := by
  refine ⟨fun r => circleSteps_of_neg, fun r hr => ?_⟩
  have hfuel : r + 1 - 0 ≤ ((r.toNat + 1 : Nat) : Int) := by omega
  have hstep {k : Nat} {o : Point} (ho : (circleSteps r)[k]? = some o) : o.y = 0 + k ∧ (circleSteps r)[k + 1]? =
      if o.y + 1 ≤ circleNextX r o.x o.y then some ⟨circleNextX r o.x o.y, o.y + 1⟩ else none := by
    rw [circleSteps_eq] at ho ⊢
    exact circleFrom_step hfuel ho
  refine ⟨?_, fun k o ho => ?_, fun k o q ho hq => ?_, fun k o ho => (hstep ho).2⟩
  · rw [circleSteps, circleFrom_head hfuel, if_pos hr]
  · obtain ⟨-, hyx, hxr⟩ := circleSteps_le (List.mem_of_getElem? ho)
    exact ⟨by rw [(hstep ho).1, zero_add], hyx, hxr⟩
  · rw [(hstep ho).2] at hq
    split at hq
    next => cases hq; exact circleNextX_eq_or r o.x o.y
    next => cases hq

/-- Settles O38: the fuel of `circleSteps` is enough, and bounds its length. -/
theorem circleLoopEndsByItself : Obligations.CircleLoopEndsByItself := by
  refine fun r n hn => ⟨circleFrom_fuel_irrelevant (by omega) (by omega), fun hr => ?_⟩
  have hlen := circleFrom_length_le (r.toNat + 1) r 0 (1 - r)
  rw [circleSteps]
  omega

/-- Settles O41: the octant points are given by the distances from the centre. -/
theorem circleOffsetsAreSymmetric : Obligations.CircleOffsetsAreSymmetric := by
  intro r u v h
  simp only [mem_circPoints_iff, sub_zero, abs_neg] at h ⊢
  obtain ⟨o, ho, heq⟩ := h
  exact ⟨⟨o, ho, heq⟩, ⟨o, ho, heq⟩, o, ho, heq.symm.imp And.symm And.symm⟩

/-- Settles O42: the spans reach the octant points, are symmetric about the centre, and cover every row. -/
theorem diskIsSolid : Obligations.DiskIsSolid := by
  refine fun tie cx cy r => ⟨fun p hp => ?_, fun x z y w hx hz hxw hwz => ?_, fun y => ?_⟩
  · obtain ⟨o, ho, heq⟩ := mem_circPoints_iff.1 hp
    exact mem_circfillPoints_iff.2 ⟨o, ho, heq.imp (And.imp_left le_of_eq) (And.imp_left le_of_eq)⟩
  · rcases le_max_iff.1 (abs_le_max_abs_abs (sub_le_sub_right hxw cx) (sub_le_sub_right hwz cx)) with hle | hle
    · exact mem_circfillPoints_of_abs_le hx hle
    · exact mem_circfillPoints_of_abs_le hz hle
  · rw [circfillPoints_row_iff, abs_le]
    omega

end Sys2Proof.Machine
end

section
/-! PROOFS. The walk of a line (41_raster.md R82, R83): the half that is wider than high is proved, and the other half
is its mirror image in the diagonal. -/

namespace Sys2Proof.Machine

/-! ## The mirror image in the diagonal -/

/-- The point mirrored in the diagonal. -/
def mirror (p : Point) : Point := ⟨p.y, p.x⟩

/-- The walk mirrored in the diagonal. -/
def LineWalk.mirror (k : LineWalk) : LineWalk := ⟨k.tie, k.y1, k.x1, k.dy, k.dx, k.sy, k.sx⟩

theorem mirror_injective : Function.Injective mirror := by
  rintro ⟨x, y⟩ ⟨u, v⟩ h
  cases h
  rfl

/-- R82's two step tests are one test, mirrored. -/
theorem stepX_neg (tie : LineTie) (e2 d : Int) : stepX tie (-e2) d = stepY tie e2 d := by
  cases tie <;> simp [stepX, stepY]

theorem stepY_neg (tie : LineTie) (e2 d : Int) : stepY tie (-e2) d = stepX tie e2 d := by
  rw [← stepX_neg, neg_neg]

theorem stepY_eq_true_iff {tie : LineTie} {e2 d : Int} :
    stepY tie e2 d = true ↔ e2 ≤ d ∧ (tie = .gtLt → e2 ≠ d) := by
  cases tie <;> simp [stepY, lt_iff_le_and_ne]

theorem stepY_eq_false_iff {tie : LineTie} {e2 d : Int} :
    stepY tie e2 d = false ↔ d ≤ e2 ∧ (tie = .geLe → d ≠ e2) := by
  cases tie <;> simp only [stepY, decide_eq_false_iff_not, not_lt, not_le] <;> simp [lt_iff_le_and_ne]

theorem lineFrom_mirror (k : LineWalk) (fuel : Nat) (x y err : Int) :
    lineFrom k.mirror fuel y x (-err) = (lineFrom k fuel x y err).map mirror := by
  induction fuel generalizing x y err with
  | zero => rfl
  | succ fuel ih =>
    rw [lineFrom, lineFrom]
    by_cases hend : x = k.x1 ∧ y = k.y1
    · have hend' : y = k.mirror.x1 ∧ x = k.mirror.y1 := hend.symm
      rw [if_pos hend', if_pos hend]; rfl
    · have hend' : ¬ (y = k.mirror.x1 ∧ x = k.mirror.y1) := fun h => hend h.symm
      have htwice : 2 * -err = -(2 * err) := by ring
      rw [if_neg hend', if_neg hend, List.map_cons, ← ih]
      simp only [htwice, stepX_neg, stepY_neg, LineWalk.mirror, mirror]
      congr 2
      ring

theorem linePoints_mirror (tie : LineTie) (x0 y0 x1 y1 : Int) :
    linePoints tie y0 x0 y1 x1 = (linePoints tie x0 y0 x1 y1).map mirror := by
  have hspan : lineSpan y0 x0 y1 x1 = lineSpan x0 y0 x1 y1 := max_comm ..
  rw [linePoints, linePoints, ← lineFrom_mirror, hspan, neg_sub]
  rfl

/-! ## What R83 says of a walk -/

/-- A walk of `n` steps from `p` to `e`: each moves by Chebyshev distance 1, and none returns. -/
structure IsWalk (p e : Point) (n : Nat) (ps : List Point) : Prop where
  length : ps.length = n + 1
  first : ps.head? = some p
  last : ps.getLast? = some e
  adjacent : ∀ (j : Nat) (a b : Point), ps[j]? = some a → ps[j + 1]? = some b → max |b.x - a.x| |b.y - a.y| = 1
  nodup : ps.Nodup

theorem isWalk_singleton (p : Point) : IsWalk p p 0 [p] where
  length := rfl
  first := rfl
  last := rfl
  adjacent j a b _ hb := by simp at hb
  nodup := List.nodup_singleton p

theorem IsWalk.cons {p q e : Point} {n : Nat} {ps : List Point} (h : IsWalk q e n ps)
    (hpq : max |q.x - p.x| |q.y - p.y| = 1) (hnew : p ∉ ps) : IsWalk p e (n + 1) (p :: ps) where
  length := by rw [List.length_cons, h.length]
  first := rfl
  last := by rw [List.getLast?_cons, h.last]; rfl
  adjacent j a b ha hb := by
    rw [List.getElem?_cons_succ] at hb
    cases j with
    | zero =>
      rw [← List.head?_eq_getElem?, h.first] at hb
      cases ha
      cases hb
      exact hpq
    | succ j => exact h.adjacent j a b ha hb
  nodup := List.nodup_cons.2 ⟨hnew, h.nodup⟩

theorem IsWalk.mirror {p e : Point} {n : Nat} {ps : List Point} (h : IsWalk p e n ps) :
    IsWalk (mirror p) (mirror e) n (ps.map mirror) where
  length := by rw [List.length_map, h.length]
  first := by rw [List.head?_map, h.first]; rfl
  last := by rw [List.getLast?_map, h.last]; rfl
  adjacent j a b ha hb := by
    rw [List.getElem?_map, Option.map_eq_some_iff] at ha hb
    obtain ⟨a, ha, rfl⟩ := ha
    obtain ⟨b, hb, rfl⟩ := hb
    exact (max_comm ..).trans (h.adjacent j a b ha hb)
  nodup := h.nodup.map mirror_injective

/-! ## A walk that is wider than high (R82) -/

/-- The loop state of such a walk with `n` columns to go: `m` rows are left, `err` is the distance from the ideal line
in closed form, and it keeps the bounds within which the walk steps in x every time and reaches its row at its end. -/
structure WideState (k : LineWalk) (n : Nat) (x y err : Int) : Prop where
  sx : k.sx = 1 ∨ k.sx = -1
  sy : k.sy = 1 ∨ k.sy = -1
  slope : 0 ≤ k.dy ∧ k.dy ≤ k.dx ∧ 0 < k.dx
  columns : k.x1 = x + n * k.sx
  rows : ∃ m : Int, k.y1 = y + m * k.sy ∧ err = n * k.dy - m * k.dx + k.dx - k.dy
  bounds : k.dx - 2 * k.dy ≤ 2 * err ∧ 2 * err ≤ 3 * k.dx - 2 * k.dy
  tieLow : k.tie = .geLe → 2 * err ≠ k.dx - 2 * k.dy
  tieHigh : k.tie = .gtLt → 2 * err ≠ 3 * k.dx - 2 * k.dy
  diagonal : k.dx = k.dy → err = 0

section
variable {k : LineWalk} {n : Nat} {x y err : Int}

/-- With no column to go no row is left either. -/
theorem WideState.at_end (h : WideState k 0 x y err) : x = k.x1 ∧ y = k.y1 := by
  obtain ⟨-, hdx, hpos⟩ := h.slope
  obtain ⟨m, hy, herr⟩ := h.rows
  obtain ⟨hlow, hhigh⟩ := h.bounds
  have hm : m = 0 := by
    rcases lt_trichotomy m 0 with hneg | hzero | hpos'
    · have : 1 * k.dx ≤ -m * k.dx := mul_le_mul_of_nonneg_right (by omega) hpos.le
      rw [neg_mul] at this
      push_cast at herr
      omega
    · exact hzero
    · have : 1 * k.dx ≤ m * k.dx := mul_le_mul_of_nonneg_right (by omega) hpos.le
      push_cast at herr
      omega
  have hx := h.columns
  rw [Nat.cast_zero, zero_mul, add_zero] at hx
  rw [hm, zero_mul, add_zero] at hy
  exact ⟨hx.symm, hy.symm⟩

theorem WideState.ne_end (h : WideState k (n + 1) x y err) : x ≠ k.x1 := by
  have hx := h.columns
  rcases h.sx with hsx | hsx <;> rw [hsx] at hx <;> omega

theorem WideState.stepX_eq (h : WideState k n x y err) : stepX k.tie (2 * err) k.dy = true := by
  obtain ⟨hdy, hdx, hpos⟩ := h.slope
  have hlow := h.bounds.1
  have hdiag := h.diagonal
  cases k.tie <;> refine decide_eq_true ?_ <;> omega

/-- One step in x, and in y where the test says so, keeps the state's bounds with one column less to go. -/
theorem WideState.step (h : WideState k (n + 1) x y err) :
    WideState k n (x + k.sx) (if stepY k.tie (2 * err) k.dx then y + k.sy else y)
      (err - k.dy + if stepY k.tie (2 * err) k.dx then k.dx else 0) := by
  obtain ⟨hdy, hdx, hpos⟩ := h.slope
  obtain ⟨m, hy, herr⟩ := h.rows
  obtain ⟨hlow, hhigh⟩ := h.bounds
  have htieLow := h.tieLow
  have htieHigh := h.tieHigh
  have hdiag := h.diagonal
  have hcolumns : k.x1 = x + k.sx + n * k.sx := by rw [h.columns]; push_cast; ring
  by_cases hstep : stepY k.tie (2 * err) k.dx = true
  · simp only [hstep, if_true]
    have hlt := stepY_eq_true_iff.1 hstep
    exact
      { h with
        columns := hcolumns
        rows := ⟨m - 1, by rw [hy]; ring, by rw [herr]; push_cast; ring⟩
        bounds := by omega
        tieLow := fun ht => by have := htieLow ht; omega
        tieHigh := fun ht => by have := hlt.2 ht; omega
        diagonal := by omega }
  · simp only [hstep, Bool.false_eq_true, if_false]
    have hge := stepY_eq_false_iff.1 (Bool.eq_false_iff.2 hstep)
    exact
      { h with
        columns := hcolumns
        rows := ⟨m, hy, by rw [herr]; push_cast; ring⟩
        bounds := by omega
        tieLow := fun ht => by have := hge.2 ht; omega
        tieHigh := fun ht => by have := htieHigh ht; omega
        diagonal := by omega }

/-- One pass of the loop on the way. -/
theorem WideState.lineFrom_succ (h : WideState k (n + 1) x y err) (fuel : Nat) :
    lineFrom k (fuel + 1) x y err =
      ⟨x, y⟩ :: lineFrom k fuel (x + k.sx) (if stepY k.tie (2 * err) k.dx then y + k.sy else y)
        (err - k.dy + if stepY k.tie (2 * err) k.dx then k.dx else 0) := by
  rw [lineFrom, if_neg fun hend => h.ne_end hend.1]
  simp only [h.stepX_eq, if_true]

/-- The walk's points lie ahead of where it stands. -/
theorem WideState.ahead (h : WideState k n x y err) :
    ∀ p ∈ lineFrom k (n + 1) x y err, (k.sx = 1 ∧ x ≤ p.x) ∨ (k.sx = -1 ∧ p.x ≤ x) := by
  have hsx := h.sx
  induction n generalizing x y err with
  | zero =>
    intro p hp
    rw [lineFrom, if_pos h.at_end, List.mem_singleton] at hp
    rw [hp]
    dsimp only
    omega
  | succ n ih =>
    intro p hp
    rw [h.lineFrom_succ, List.mem_cons] at hp
    rcases hp with rfl | hp
    · dsimp only; omega
    · have := ih h.step p hp
      omega

theorem WideState.isWalk (h : WideState k n x y err) :
    IsWalk ⟨x, y⟩ ⟨k.x1, k.y1⟩ n (lineFrom k (n + 1) x y err) := by
  induction n generalizing x y err with
  | zero =>
    rw [lineFrom, if_pos h.at_end, ← h.at_end.1, ← h.at_end.2]
    exact isWalk_singleton _
  | succ n ih =>
    have hsx := h.sx
    have hsy := h.sy
    rw [h.lineFrom_succ]
    refine (ih h.step).cons ?_ fun hback => ?_
    · have hx : |x + k.sx - x| = 1 := by rw [add_sub_cancel_left, abs_eq one_pos.le]; exact hsx
      have hy : |(if stepY k.tie (2 * err) k.dx then y + k.sy else y) - y| ≤ 1 := by
        rw [abs_le]
        split <;> omega
      exact (max_eq_left (hy.trans hx.ge)).trans hx
    · have := h.step.ahead _ hback
      dsimp only at this
      omega

end

/-- The start of a walk that is wider than high. -/
theorem wideState_start (tie : LineTie) {x0 y0 x1 y1 : Int} (hne : x0 ≠ x1)
    (hwide : (y1 - y0).natAbs ≤ (x1 - x0).natAbs) :
    WideState ⟨tie, x1, y1, (x1 - x0).natAbs, (y1 - y0).natAbs, stepSign x0 x1, stepSign y0 y1⟩ (x1 - x0).natAbs
      x0 y0 ((x1 - x0).natAbs - (y1 - y0).natAbs) where
  sx := by simp only [stepSign]; split <;> omega
  sy := by simp only [stepSign]; split <;> omega
  slope := by dsimp only; omega
  columns := by simp only [stepSign]; split <;> omega
  rows := ⟨(y1 - y0).natAbs, by simp only [stepSign]; split <;> omega, by ring⟩
  bounds := by dsimp only; omega
  tieLow _ := by dsimp only; omega
  tieHigh _ := by dsimp only; omega
  diagonal h := by dsimp only at h; omega

theorem isWalk_linePoints_of_wide (tie : LineTie) {x0 y0 x1 y1 : Int}
    (hwide : (y1 - y0).natAbs ≤ (x1 - x0).natAbs) :
    IsWalk ⟨x0, y0⟩ ⟨x1, y1⟩ (lineSpan x0 y0 x1 y1) (linePoints tie x0 y0 x1 y1) := by
  have hspan : lineSpan x0 y0 x1 y1 = (x1 - x0).natAbs := max_eq_left hwide
  by_cases hne : x0 = x1
  · have hy : y0 = y1 := by omega
    rw [hspan, hne, hy, linePoints_self, sub_self]
    exact isWalk_singleton _
  · rw [linePoints, hspan]
    exact (wideState_start tie hne hwide).isWalk

/-- Every line's plots are a walk between its end points (R83). -/
theorem isWalk_linePoints (tie : LineTie) (x0 y0 x1 y1 : Int) :
    IsWalk ⟨x0, y0⟩ ⟨x1, y1⟩ (lineSpan x0 y0 x1 y1) (linePoints tie x0 y0 x1 y1) := by
  rcases le_total (y1 - y0).natAbs (x1 - x0).natAbs with hwide | hhigh
  · exact isWalk_linePoints_of_wide tie hwide
  · have hspan : lineSpan x0 y0 x1 y1 = lineSpan y0 x0 y1 x1 := max_comm ..
    rw [hspan, linePoints_mirror tie y0 x0 y1 x1]
    exact (isWalk_linePoints_of_wide tie hhigh).mirror

/-- A vertical line plots every point between its ends, as the mirror image of a horizontal one. -/
theorem mem_linePoints_vertical (tie : LineTie) (x y0 y1 : Int) {u v : Int} :
    ⟨u, v⟩ ∈ linePoints tie x y0 x y1 ↔ u = x ∧ min y0 y1 ≤ v ∧ v ≤ max y0 y1 := by
  rw [linePoints_mirror tie y0 x y1 x]
  exact (List.mem_map_of_injective mirror_injective (a := ⟨v, u⟩)).trans (mem_linePoints_horizontal tie y0 y1 x)

/-! ## The loop's own exit (R82, R83) -/

theorem getLast?_of_cons {α : Type} {a e : α} {l : List α} (h : (a :: l).getLast? = some e) (hne : a ≠ e) :
    l.getLast? = some e := by
  cases l with
  | nil => exact absurd (Option.some.inj h) hne
  | cons b l => rwa [List.getLast?_cons_cons] at h

/-- A loop that has reached its end point has no use for more fuel. -/
theorem lineFrom_of_getLast? {k : LineWalk} {m n : Nat} {x y err : Int} (hmn : m ≤ n)
    (hlast : (lineFrom k m x y err).getLast? = some ⟨k.x1, k.y1⟩) :
    lineFrom k n x y err = lineFrom k m x y err := by
  induction m generalizing n x y err with
  | zero => cases hlast
  | succ m ih =>
    cases n with
    | zero => cases hmn
    | succ n =>
      by_cases hend : x = k.x1 ∧ y = k.y1
      · rw [lineFrom, lineFrom, if_pos hend, if_pos hend]
      · rw [lineFrom, if_neg hend] at hlast
        rw [lineFrom, lineFrom, if_neg hend, if_neg hend]
        congr 1
        have hne : (⟨x, y⟩ : Point) ≠ ⟨k.x1, k.y1⟩ := fun he => hend (Point.mk.inj he)
        exact ih (Nat.le_of_succ_le_succ hmn) (getLast?_of_cons hlast hne)

/-- The two forms of the step tests differ at a tie only (R82). -/
theorem stepX_ne_iff (e2 d : Int) : stepX .gtLt e2 d ≠ stepX .geLe e2 d ↔ e2 = -d := by
  simp only [stepX, ne_eq, decide_eq_decide]
  omega

theorem stepY_ne_iff (e2 d : Int) : stepY .gtLt e2 d ≠ stepY .geLe e2 d ↔ e2 = d := by
  simp only [stepY, ne_eq, decide_eq_decide]
  omega

/-! ## The obligations -/

/-- Settles O30: the walk in its wider direction, and the two straight runs. -/
theorem lineWalkProperties : Obligations.LineWalkProperties := by
  intro tie x0 y0 x1 y1 ps
  obtain ⟨hlength, hfirst, hlast, hadjacent, hnodup⟩ := isWalk_linePoints tie x0 y0 x1 y1
  refine ⟨?_, hfirst, hlast, hadjacent, hnodup, ?_, ?_⟩
  · rw [hlength, lineSpan]
    push_cast
    rfl
  · rintro rfl x y; exact mem_linePoints_horizontal tie x0 x1 y0
  · rintro rfl x y; exact mem_linePoints_vertical tie x0 y0 y1

/-- Settles O31: the walk ends at its end point, and one pass of the loop is its definition. -/
theorem lineLoopEndsByItself : Obligations.LineLoopEndsByItself := by
  refine ⟨fun tie x0 y0 x1 y1 n hn => ?_, fun tie x1 y1 dx dy sx sy x y err fuel => ⟨fun hend => ?_, fun hend => ?_⟩,
    fun e2 d => ⟨stepX_ne_iff e2 d, stepY_ne_iff e2 d⟩, fun d => ?_⟩
  · rw [Int.abs_eq_natAbs, Int.abs_eq_natAbs]
    exact lineFrom_of_getLast? hn (isWalk_linePoints tie x0 y0 x1 y1).last
  · rw [lineFrom, if_pos hend]
  · rw [lineFrom, if_neg hend]
    cases tie <;> rfl
  · simp [stepX, stepY]

end Sys2Proof.Machine
end
